-- ==== Sys2Proof/Word.lean ====
section
/-! DEFINITION. Word.lean: the bit-vector types of LTCFE (00_scope.md R6, R10) and nothing else.

Bit vectors stand for what the spec treats as bits: a register, a register index, a sample word and
a transaction word. Bit 0 is the least significant bit (R10). Sequences of bits in transmission
order (BL, ACC) are lists, index 0 the first bit transmitted (R10, R11). -/

namespace Sys2Proof

/-- A host-visible register, `REG_W` = 32 bits (00_scope.md R6). -/
abbrev Word := BitVec 32

/-- A register index, `IDX_W` = 8 bits (00_scope.md R6). -/
abbrev Index := BitVec 8

/-- One amplitude sample, `SAMPLE_W` = 16 bits, signed two's complement (00_scope.md R6, R12);
its signed value is `BitVec.toInt`. -/
abbrev Sample := BitVec 16

/-- One host transaction as the 41-bit transaction word `T` of 30_encoding.md R80. -/
abbrev TxnWord := BitVec 41

/-- A sequence of bits in transmission order (00_scope.md R10). -/
abbrev Bits := List Bool

end Sys2Proof
end

