-- ==== Sys2Proof/Syntax.lean ====
section
/-! DEFINITION. Syntax.lean: the host transactions of LTCFE, one constructor per row of
spec/opcode_table.json. LTCFE has no instruction set; its "instructions" are the host's bus
transactions (30_encoding.md R80, R82; 44_host_commands.md R180 to R192).

An operand is kept as the whole `data` word of the transaction, ignored bits included, so that no
bit of a write is lost; what a meaning ignores it ignores itself. -/

namespace Sys2Proof

/-- One host transaction (spec/opcode_table.json, 19 rows). -/
inductive Instr where
  /-- RD: read of register `idx`; its `data` field is not decoded (44_host_commands.md R180). -/
  | rd (idx : Index)
  /-- WR_CFG0 (44_host_commands.md R183). -/
  | wrCfg0 (data : Word)
  /-- WR_CFG1 (44_host_commands.md R184). -/
  | wrCfg1 (data : Word)
  /-- WR_CFG2 (44_host_commands.md R185). -/
  | wrCfg2 (data : Word)
  /-- WR_SAMPLE_RATE (44_host_commands.md R186). -/
  | wrSampleRate (data : Word)
  /-- PUSH: write to SAMPLE_IN (44_host_commands.md R182). -/
  | push (data : Word)
  /-- WR_FRAME0 (44_host_commands.md R187). -/
  | wrFrame0 (data : Word)
  /-- WR_FRAME1 (44_host_commands.md R187). -/
  | wrFrame1 (data : Word)
  /-- WR_FRAME2 (44_host_commands.md R188). -/
  | wrFrame2 (data : Word)
  /-- Command NOP (44_host_commands.md R189). -/
  | nop
  /-- Command CLEAR (44_host_commands.md R190). -/
  | clear
  /-- Command EDGE (40_edge_detector.md R110). -/
  | edge
  /-- Command CLASS (41_pulse_classifier.md R120). -/
  | classify
  /-- Command SYNC (42_frame_synchronizer.md R140). -/
  | sync
  /-- Command DECODE (43_timecode_decoder.md R160). -/
  | decode
  /-- Command RUN (44_host_commands.md R191). -/
  | run
  /-- Command POP (44_host_commands.md R192). -/
  | pop
  /-- A write of a reserved command word to CMD (30_encoding.md R83). -/
  | cmdReserved (data : Word)
  /-- A write to a read-only register or to an unmapped index (20_memory.md R66). -/
  | wrIllegal (idx : Index) (data : Word)
  deriving DecidableEq, Repr

/-- The 27 host-visible registers (10_state.md R30). -/
inductive Reg where
  | id | cmd | status | result | cfg0 | cfg1 | cfg2 | sampleRate | sampleIn | wptr | edgeCount
  | pulseCount | pulseSum | shortCount | longCount | pct | accLen | deferCnt | frame0 | frame1
  | frame2 | eventHead | eventCount | winFlags | winFrames | winEvents | winInvalid
  deriving DecidableEq, Repr

/-- The access kinds of 10_state.md R30. -/
inductive Access where
  | readOnly | writeOnly | readWrite
  deriving DecidableEq, Repr

end Sys2Proof
end

