-- ==== Sys2Proof/WellFormed.lean ====
section
/-! DEFINITION. WellFormed.lean: which terms of `Instr` stand for a transaction. Only the two
fallback rows of the opcode table carry a condition: a reserved command word is none of the eight
commands (30_encoding.md R82, R83), and an illegal write goes to no writable index (20_memory.md
R66, 10_state.md R30). -/

namespace Sys2Proof

/-- The command words of 30_encoding.md R82: `op` 0x00 to 0x07 with every bit of `zero` 0. -/
def isCommandWord (data : Word) : Bool := data.toNat < 8

/-- The indices of the WO and RW registers (10_state.md R30): CMD, CFG0, CFG1, CFG2, SAMPLE_RATE,
SAMPLE_IN, FRAME0, FRAME1, FRAME2. -/
def writableIndices : List Index :=
  [0x01#8, 0x04#8, 0x05#8, 0x06#8, 0x07#8, 0x08#8, 0x12#8, 0x13#8, 0x14#8]

/-- A write to this index is legal (10_state.md R30). -/
def isWritableIndex (idx : Index) : Bool := writableIndices.contains idx

/-- The term stands for a host transaction. -/
def Instr.wellFormed : Instr → Bool
  | .rd _ => true
  | .wrCfg0 _ => true
  | .wrCfg1 _ => true
  | .wrCfg2 _ => true
  | .wrSampleRate _ => true
  | .push _ => true
  | .wrFrame0 _ => true
  | .wrFrame1 _ => true
  | .wrFrame2 _ => true
  | .nop => true
  | .clear => true
  | .edge => true
  | .classify => true
  | .sync => true
  | .decode => true
  | .run => true
  | .pop => true
  | .cmdReserved data => !isCommandWord data
  | .wrIllegal idx _ => !isWritableIndex idx

end Sys2Proof
end

