-- ==== Sys2Proof/Decode.lean ====
section
/-! DEFINITION. Decode.lean: from the bits of a transaction word to an `Instr`, the encoder, the
opcode table, and the assembler's pseudo-instructions (30_encoding.md R80 to R86, R97, R98;
spec/opcode_table.json). -/

namespace Sys2Proof

/-! ## Decoder -/

/-- Bit 40 of a transaction word: 1 a write, 0 a read (30_encoding.md R80). -/
def txnIsWrite (t : TxnWord) : Bool := t.getLsbD 40

/-- Bits 39:32 of a transaction word, the register index (30_encoding.md R80). -/
def txnIndex (t : TxnWord) : Index := t.extractLsb' 32 8

/-- Bits 31:0 of a transaction word, the data written (30_encoding.md R80). -/
def txnData (t : TxnWord) : Word := t.extractLsb' 0 32

/-- Bits 7:0 of a command word (30_encoding.md R81). -/
def commandOp (data : Word) : BitVec 8 := data.extractLsb' 0 8

/-- Bits 31:8 of a command word, which must be 0 (30_encoding.md R81). -/
def commandZero (data : Word) : BitVec 24 := data.extractLsb' 8 24

/-- A write to CMD decodes by its data (30_encoding.md R82, R83): a nonzero `zero` field is
reserved whatever `op` is, and `op` 0x08 to 0xFF is reserved. -/
def decodeCommand (data : Word) : Instr :=
  if commandZero data = 0#24 then
    match (commandOp data).toNat with
    | 0x00 => .nop
    | 0x01 => .clear
    | 0x02 => .edge
    | 0x03 => .classify
    | 0x04 => .sync
    | 0x05 => .decode
    | 0x06 => .run
    | 0x07 => .pop
    | _ => .cmdReserved data
  else .cmdReserved data

/-- A write decodes by its index (44_host_commands.md R181, 30_encoding.md R86). -/
def decodeWrite (idx : Index) (data : Word) : Instr :=
  match idx.toNat with
  | 0x01 => decodeCommand data
  | 0x04 => .wrCfg0 data
  | 0x05 => .wrCfg1 data
  | 0x06 => .wrCfg2 data
  | 0x07 => .wrSampleRate data
  | 0x08 => .push data
  | 0x12 => .wrFrame0 data
  | 0x13 => .wrFrame1 data
  | 0x14 => .wrFrame2 data
  | _ => .wrIllegal idx data

/-- The transaction a 41-bit transaction word stands for. Every word decodes: "every transaction
decodes by `w`, then `idx`, then, for `idx` = 0x01, by `data`" (30_encoding.md R86). -/
def decode (t : TxnWord) : Instr :=
  if txnIsWrite t then decodeWrite (txnIndex t) (txnData t) else .rd (txnIndex t)

/-- Why a number is no transaction. -/
inductive DecodeError where
  /-- The number needs more than the 41 bits of a transaction word, "the only instruction length
  there is" (30_encoding.md R80); no access of another width exists (20_memory.md R61). -/
  | notATransactionWord
  deriving DecidableEq, Repr

/-- A number read as a transaction word, rejected by name where it does not fit 41 bits
(30_encoding.md R80). -/
def decodeBits (bits : Nat) : Except DecodeError Instr :=
  if bits < 2 ^ 41 then .ok (decode (BitVec.ofNat 41 bits)) else .error .notATransactionWord

/-- The bits of a table word: the low `nbits` bits of `w`, every higher bit 0. -/
def tableBits (nbits w : Nat) : Nat := w % 2 ^ nbits

/-- The instruction this decoder reads from an instruction whose bits are `w`, numbered as
spec/opcode_table.json numbers them. -/
def decodeTableWord (nbits w : Nat) : Option Instr := (decodeBits (tableBits nbits w)).toOption

/-! ## Encoder -/

/-- The transaction word with fields `w`, `idx`, `data` (30_encoding.md R80). -/
def txnWord (w : Bool) (idx : Index) (data : Word) : TxnWord := BitVec.ofBool w ++ idx ++ data

/-- A write of command `op` to CMD (30_encoding.md R81, R98). -/
def commandWord (op : BitVec 8) : TxnWord := txnWord true 0x01#8 (op.setWidth 32)

/-- The transaction word of a well-formed instruction (30_encoding.md R80 to R86). -/
def encode : Instr → TxnWord
  | .rd idx => txnWord false idx 0#32
  | .wrCfg0 data => txnWord true 0x04#8 data
  | .wrCfg1 data => txnWord true 0x05#8 data
  | .wrCfg2 data => txnWord true 0x06#8 data
  | .wrSampleRate data => txnWord true 0x07#8 data
  | .push data => txnWord true 0x08#8 data
  | .wrFrame0 data => txnWord true 0x12#8 data
  | .wrFrame1 data => txnWord true 0x13#8 data
  | .wrFrame2 data => txnWord true 0x14#8 data
  | .nop => commandWord 0x00#8
  | .clear => commandWord 0x01#8
  | .edge => commandWord 0x02#8
  | .classify => commandWord 0x03#8
  | .sync => commandWord 0x04#8
  | .decode => commandWord 0x05#8
  | .run => commandWord 0x06#8
  | .pop => commandWord 0x07#8
  | .cmdReserved data => txnWord true 0x01#8 data
  | .wrIllegal idx data => txnWord true idx data

/-! ## The opcode table -/

/-- One row of spec/opcode_table.json: a transaction word `t` fits the row when its masked bits
equal `pattern` (the table's "match"). -/
structure Row where
  mnemonic : String
  pattern : TxnWord
  mask : TxnWord
  deriving DecidableEq, Repr

/-- The word fits the row. -/
def Row.fits (r : Row) (t : TxnWord) : Bool := t &&& r.mask == r.pattern

/-- The rows of spec/opcode_table.json in the table's order: the two fallback rows stand last, and
a word belongs to the first row it fits. -/
def opcodeTable : List Row :=
  [ ⟨"RD", 0x00000000000#41, 0x10000000000#41⟩,
    ⟨"WR_CFG0", 0x10400000000#41, 0x1FF00000000#41⟩,
    ⟨"WR_CFG1", 0x10500000000#41, 0x1FF00000000#41⟩,
    ⟨"WR_CFG2", 0x10600000000#41, 0x1FF00000000#41⟩,
    ⟨"WR_SAMPLE_RATE", 0x10700000000#41, 0x1FF00000000#41⟩,
    ⟨"PUSH", 0x10800000000#41, 0x1FF00000000#41⟩,
    ⟨"WR_FRAME0", 0x11200000000#41, 0x1FF00000000#41⟩,
    ⟨"WR_FRAME1", 0x11300000000#41, 0x1FF00000000#41⟩,
    ⟨"WR_FRAME2", 0x11400000000#41, 0x1FF00000000#41⟩,
    ⟨"NOP", 0x10100000000#41, 0x1FFFFFFFFFF#41⟩,
    ⟨"CLEAR", 0x10100000001#41, 0x1FFFFFFFFFF#41⟩,
    ⟨"EDGE", 0x10100000002#41, 0x1FFFFFFFFFF#41⟩,
    ⟨"CLASS", 0x10100000003#41, 0x1FFFFFFFFFF#41⟩,
    ⟨"SYNC", 0x10100000004#41, 0x1FFFFFFFFFF#41⟩,
    ⟨"DECODE", 0x10100000005#41, 0x1FFFFFFFFFF#41⟩,
    ⟨"RUN", 0x10100000006#41, 0x1FFFFFFFFFF#41⟩,
    ⟨"POP", 0x10100000007#41, 0x1FFFFFFFFFF#41⟩,
    ⟨"CMD_RESERVED", 0x10100000000#41, 0x1FF00000000#41⟩,
    ⟨"WR_ILLEGAL", 0x10000000000#41, 0x10000000000#41⟩ ]

/-- The mnemonic of the row an instruction is (spec/opcode_table.json). -/
def mnemonicOf : Instr → String
  | .rd _ => "RD"
  | .wrCfg0 _ => "WR_CFG0"
  | .wrCfg1 _ => "WR_CFG1"
  | .wrCfg2 _ => "WR_CFG2"
  | .wrSampleRate _ => "WR_SAMPLE_RATE"
  | .push _ => "PUSH"
  | .wrFrame0 _ => "WR_FRAME0"
  | .wrFrame1 _ => "WR_FRAME1"
  | .wrFrame2 _ => "WR_FRAME2"
  | .nop => "NOP"
  | .clear => "CLEAR"
  | .edge => "EDGE"
  | .classify => "CLASS"
  | .sync => "SYNC"
  | .decode => "DECODE"
  | .run => "RUN"
  | .pop => "POP"
  | .cmdReserved _ => "CMD_RESERVED"
  | .wrIllegal _ _ => "WR_ILLEGAL"

/-! ## Pseudo-instructions of the assembler notation -/

/-- The pseudo-instructions of 30_encoding.md R98. -/
inductive Pseudo where
  | nop | clear | edge | classify | sync | decode | run | pop
  /-- `push s1, s2, ...`, one PUSH per value in order. -/
  | push (samples : List Int)
  /-- `frame f0, f1, f2`. -/
  | frame (f0 f1 f2 : Word)
  deriving DecidableEq, Repr

/-- `wr SAMPLE_IN, s mod 65536` (30_encoding.md R98). -/
def pushOfInt (s : Int) : Instr := .push (BitVec.ofInt 32 (s % 65536))

/-- The transactions a pseudo-instruction stands for (30_encoding.md R98). -/
def expand : Pseudo → List Instr
  | .nop => [.nop]
  | .clear => [.clear]
  | .edge => [.edge]
  | .classify => [.classify]
  | .sync => [.sync]
  | .decode => [.decode]
  | .run => [.run]
  | .pop => [.pop]
  | .push samples => samples.map pushOfInt
  | .frame f0 f1 f2 => [.wrFrame0 f0, .wrFrame1 f1, .wrFrame2 f2]

end Sys2Proof
end

