-- ==== Sys2Proof/Config.lean ====
section
/-! DEFINITION. Config.lean: the implementation parameters of 00_scope.md R6 and the constants the
spec decides for the hardware (identification, reset values of the configuration registers, nibble
offsets).

The spec leaves no row OPEN (92_eei_decisions.md, "Open parameters"), so each parameter stands at
the default the spec states (log entry 5), and no free value is needed. -/

namespace Sys2Proof.Config

/-- `SB_CAP`, capacity of the sample buffer in samples (00_scope.md R6). -/
def sbCap : Nat := 65536

/-- `EL_CAP`, capacity of the edge list (00_scope.md R6, 40_edge_detector.md R112). -/
def elCap : Nat := sbCap / 2

/-- `BL_CAP`, capacity of the window bit list (00_scope.md R6). -/
def blCap : Nat := elCap - 1

/-- `ACC_CAP`, capacity of the bit accumulator in bits, at least `BL_CAP + 95` (00_scope.md R6). -/
def accCap : Nat := 65536

/-- `EVQ_CAP`, capacity of the event queue in events (00_scope.md R6). -/
def evqCap : Nat := 64

/-- `SYNC_LEN`, length of the sync word (00_scope.md R6). -/
def syncLen : Nat := 16

/-- `FRAME_LEN`, length of a Frame in bits (00_scope.md R6). -/
def frameLen : Nat := 80

/-- `SYNC_WORD` = `0011111111111101`, leftmost bit first transmitted (00_scope.md R6,
30_encoding.md R88). -/
def syncWord : Bits :=
  [false, false, true, true, true, true, true, true,
   true, true, true, true, true, true, false, true]

/-- `K_FRAC`, fractional bits of the adaptive-threshold multiplier (00_scope.md R6). -/
def kFrac : Nat := 6

/-- The value register ID reads, the ASCII bytes `L T C 1` (10_state.md R31). -/
def idValue : Word := 0x4C544331#32

/-- Reset value of CFG0: STRATEGY 0, RATE 0, K 96, ITER_CAP 10, DEFER_MAX 2 (10_state.md R35, R54). -/
def cfg0Reset : Word := 0x002A6000#32

/-- Reset value of CFG1: MIN_PULSES 1000 (10_state.md R36, R54). -/
def cfg1Reset : Word := 0x000003E8#32

/-- Reset value of CFG2: PCT_LO 10, PCT_HI 90 (10_state.md R37, R54). -/
def cfg2Reset : Word := 0x00005A0A#32

/-- Reset value of SAMPLE_RATE: 48000 (10_state.md R38, R54). -/
def sampleRateReset : Word := 0x0000BB80#32

end Sys2Proof.Config
end

