-- ==== Sys2Proof/Machine/State.lean ====
section
/-! DEFINITION. Machine/State.lean: the complete state of LTCFE (10_state.md R20), its reset value
(10_state.md R54), and the reasons a step could stop.

Two fields are the MODEL's own, not the spec's: `hostIn`, what the host still has to present, and
`hostOut`, what reads have returned (log entries 1 and 2). Everything else is a state element of
R20. There is no program counter, no general register and no byte memory (R20, R29; 20_memory.md
R60). -/

namespace Sys2Proof.Machine

/-- What the host presents to the block, one at a time (00_scope.md R8, 20_memory.md R70). -/
inductive HostInput where
  /-- One bus transaction as its transaction word (30_encoding.md R80). -/
  | txn (t : TxnWord)
  /-- One assertion and release of the reset input (70_reset_and_hazards.md R220). -/
  | reset
  deriving DecidableEq, Repr

/-- The state of LTCFE. -/
structure State where
  /-- MODEL: the inputs the host has not presented yet, the next one first. -/
  hostIn : List HostInput
  /-- MODEL: the values the RD transactions so far have returned, oldest first. -/
  hostOut : List Word
  /-- SB, the samples of the window; WPTR is its length (10_state.md R21). -/
  sb : List Sample
  /-- EL, the edge list (10_state.md R22). -/
  el : List Nat
  /-- EL_VALID (10_state.md R22). -/
  elValid : Bool
  /-- EDGE_COUNT, 16 bits (10_state.md R22). -/
  edgeCount : BitVec 16
  /-- BL, the window bit list (10_state.md R23). -/
  bl : Bits
  /-- BL_VALID (10_state.md R23). -/
  blValid : Bool
  /-- PULSE_COUNT, 16 bits (10_state.md R24). -/
  pulseCount : BitVec 16
  /-- PULSE_SUM, 17 bits (10_state.md R24). -/
  pulseSum : BitVec 17
  /-- SHORT_COUNT, 16 bits (10_state.md R24). -/
  shortCount : BitVec 16
  /-- LONG_COUNT, 16 bits (10_state.md R24). -/
  longCount : BitVec 16
  /-- SHORT_PCT, 7 bits (10_state.md R24). -/
  shortPct : BitVec 7
  /-- LONG_PCT, 7 bits (10_state.md R24). -/
  longPct : BitVec 7
  /-- LTC_LIKE (10_state.md R24). -/
  ltcLike : Bool
  /-- ACC, the bit accumulator, index 0 the oldest bit (10_state.md R25). -/
  acc : Bits
  /-- DEFER_CNT, 4 bits (10_state.md R25). -/
  deferCnt : BitVec 4
  /-- FRAME, 80 bits; bit `j` is `F[j]`, `F[0]` the first transmitted (10_state.md R26). -/
  frame : BitVec 80
  /-- FRAME_VALID (10_state.md R26). -/
  frameValid : Bool
  /-- EVQ, the event queue, index 0 the oldest event (10_state.md R27). -/
  evq : List Word
  /-- RESULT, 4 bits (10_state.md R34). -/
  result : BitVec 4
  /-- WIN_FLAGS (10_state.md R51). -/
  winFlags : Word
  /-- WIN_FRAMES, 32 bits (10_state.md R52). -/
  winFrames : Word
  /-- WIN_EVENTS, 32 bits (10_state.md R52). -/
  winEvents : Word
  /-- WIN_INVALID, 32 bits (10_state.md R52). -/
  winInvalid : Word
  /-- SB_OVF, sticky (10_state.md R33). -/
  sbOvf : Bool
  /-- ACC_OVF, sticky (10_state.md R33). -/
  accOvf : Bool
  /-- EV_OVF, sticky (10_state.md R33). -/
  evOvf : Bool
  /-- ERR_SEQ, sticky (10_state.md R33). -/
  errSeq : Bool
  /-- ERR_CMD, sticky (10_state.md R33). -/
  errCmd : Bool
  /-- ERR_BUS, sticky (10_state.md R33). -/
  errBus : Bool
  /-- CFG0 (10_state.md R35). -/
  cfg0 : Word
  /-- CFG1 (10_state.md R36). -/
  cfg1 : Word
  /-- CFG2 (10_state.md R37). -/
  cfg2 : Word
  /-- SAMPLE_RATE (10_state.md R38). -/
  sampleRate : Word
  deriving DecidableEq, Repr

/-- The state after hardware reset: every element at the value 10_state.md R54 states, no input
presented and nothing read yet. -/
def State.reset : State where
  hostIn := []
  hostOut := []
  sb := []
  el := []
  elValid := false
  edgeCount := 0#16
  bl := []
  blValid := false
  pulseCount := 0#16
  pulseSum := 0#17
  shortCount := 0#16
  longCount := 0#16
  shortPct := 0#7
  longPct := 0#7
  ltcLike := false
  acc := []
  deferCnt := 0#4
  frame := 0#80
  frameValid := false
  evq := []
  result := 0#4
  winFlags := 0#32
  winFrames := 0#32
  winEvents := 0#32
  winInvalid := 0#32
  sbOvf := false
  accOvf := false
  evOvf := false
  errSeq := false
  errCmd := false
  errBus := false
  cfg0 := Config.cfg0Reset
  cfg1 := Config.cfg1Reset
  cfg2 := Config.cfg2Reset
  sampleRate := Config.sampleRateReset

/-- Why the machine would stop. LTCFE has no fatal condition of its own: every error outcome and
every protocol error is recorded in state and the block accepts the next command (60_exceptions.md
R201, R207). So there is no constructor, and no step can fault. -/
inductive Fault
  deriving DecidableEq, Repr

/-- Why an instruction would have no meaning. -/
inductive Refusal where
  /-- Raised by an arm of `exec` for an instruction that has no meaning yet. Safe: the model stops
  where the hardware goes on. No arm of this model raises it. -/
  | notModelled (mnemonic : String)
  deriving DecidableEq, Repr

/-- The outcome of one step. -/
abbrev StepResult := Host.Outcome State Fault Refusal

/-- The outcome codes of 30_encoding.md R94. -/
inductive Code where
  | none | edgesOk | bitsOk | frame | event | deferred | noSignal | insufficientPulses
  | noSyncFound | invalidFrame | errSeq | errCmd
  deriving DecidableEq, Repr

/-- The protocol errors of 60_exceptions.md R202. -/
inductive ProtocolError where
  /-- A command found no input to work on. -/
  | seq
  /-- A reserved command word was written to CMD. -/
  | cmd
  /-- A write hit a read-only register or an unmapped index. -/
  | bus
  deriving DecidableEq, Repr

/-- The eight BCD nibbles of a Frame (30_encoding.md R89). -/
inductive Digit where
  | framesUnits | framesTens | secondsUnits | secondsTens
  | minutesUnits | minutesTens | hoursUnits | hoursTens
  deriving DecidableEq, Repr

end Sys2Proof.Machine
end

