-- ==== Sys2Proof/Machine/Flags.lean ====
section
/-! DEFINITION. Machine/Flags.lean: outcome codes, the STATUS word and the WIN_FLAGS record
(10_state.md R33, R34, R51; 30_encoding.md R94, R95; 60_exceptions.md R206). -/

namespace Sys2Proof.Machine

/-- The number of an outcome code (30_encoding.md R94). -/
def Code.value : Code → BitVec 4
  | .none => 0#4
  | .edgesOk => 1#4
  | .bitsOk => 2#4
  | .frame => 3#4
  | .event => 4#4
  | .deferred => 5#4
  | .noSignal => 8#4
  | .insufficientPulses => 9#4
  | .noSyncFound => 10#4
  | .invalidFrame => 11#4
  | .errSeq => 14#4
  | .errCmd => 15#4

/-- The codes recorded in WIN_FLAGS: 1, 2, 3, 4, 5, 8, 9, 10, 11 (30_encoding.md R95,
60_exceptions.md R206). -/
def Code.inWinFlags : Code → Bool
  | .none => false
  | .edgesOk => true
  | .bitsOk => true
  | .frame => true
  | .event => true
  | .deferred => true
  | .noSignal => true
  | .insufficientPulses => true
  | .noSyncFound => true
  | .invalidFrame => true
  | .errSeq => false
  | .errCmd => false

/-- The bit of WIN_FLAGS that records a code, the code being its index (30_encoding.md R95). -/
def Code.winFlag (c : Code) : Word := if c.inWinFlags then 1#32 <<< c.value.toNat else 0#32

/-- The word whose only possible 1 bit is bit `n`. -/
def flagAt (b : Bool) (n : Nat) : Word := if b then 1#32 <<< n else 0#32

/-- The value STATUS reads (10_state.md R33). BUSY, bit 5, is always 0. -/
def statusWord (s : State) : Word :=
  flagAt s.elValid 0 ||| flagAt s.blValid 1 ||| flagAt s.frameValid 2
    ||| flagAt (!s.evq.isEmpty) 3 ||| flagAt s.ltcLike 4
    ||| flagAt s.sbOvf 8 ||| flagAt s.accOvf 9 ||| flagAt s.evOvf 10
    ||| flagAt s.errSeq 11 ||| flagAt s.errCmd 12 ||| flagAt s.errBus 13

end Sys2Proof.Machine
end

