-- ==== Sys2Proof/Machine/Operands.lean ====
section
/-! DEFINITION. Machine/Operands.lean: the operands a transaction or a unit reads: fields of the
configuration registers, the sample word, the bits and nibbles of FRAME, and the register map with
the value each register reads (10_state.md R30 to R53; 30_encoding.md R84, R85, R89, R91, R96;
20_memory.md R64, R67). -/

namespace Sys2Proof.Machine

/-! ## Fields of the configuration registers -/

/-- CFG0.STRATEGY, bit 0: 1 selects the two-cluster strategy (10_state.md R35). -/
def twoClusterSelected (s : State) : Bool := s.cfg0.getLsbD 0

/-- CFG0.RATE, bits 2:1 (10_state.md R35). -/
def rateCode (s : State) : BitVec 2 := s.cfg0.extractLsb' 1 2

/-- CFG0.K, bits 15:8, the multiplier times 64 (10_state.md R35, 30_encoding.md R96). -/
def multiplierK (s : State) : BitVec 8 := s.cfg0.extractLsb' 8 8

/-- CFG0.ITER_CAP, bits 19:16 (10_state.md R35). -/
def iterCap (s : State) : BitVec 4 := s.cfg0.extractLsb' 16 4

/-- CFG0.DEFER_MAX, bits 23:20 (10_state.md R35). -/
def deferMax (s : State) : BitVec 4 := s.cfg0.extractLsb' 20 4

/-- CFG1.MIN_PULSES, bits 15:0 (10_state.md R36). -/
def minPulses (s : State) : BitVec 16 := s.cfg1.extractLsb' 0 16

/-- CFG2.PCT_LO, bits 6:0 (10_state.md R37). -/
def pctLo (s : State) : BitVec 7 := s.cfg2.extractLsb' 0 7

/-- CFG2.PCT_HI, bits 14:8 (10_state.md R37). -/
def pctHi (s : State) : BitVec 7 := s.cfg2.extractLsb' 8 7

/-- The writable bits of CFG0 (44_host_commands.md R183). -/
def cfg0Mask : Word := 0x00FFFF07#32

/-- The writable bits of CFG1 (44_host_commands.md R184). -/
def cfg1Mask : Word := 0x0000FFFF#32

/-- The writable bits of CFG2 (44_host_commands.md R185). -/
def cfg2Mask : Word := 0x00007F7F#32

/-- The writable bits of SAMPLE_RATE (44_host_commands.md R186). -/
def sampleRateMask : Word := 0x00FFFFFF#32

/-! ## The sample word -/

/-- The sample a write to SAMPLE_IN carries: `data[15:0]` in two's complement, `data[31:16]` ignored
(30_encoding.md R84). -/
def sampleOf (data : Word) : Sample := data.extractLsb' 0 16

/-! ## FRAME -/

/-- FRAME with `F[0..32)` replaced (44_host_commands.md R187, 30_encoding.md R91). -/
def setFrame0 (f : BitVec 80) (data : Word) : BitVec 80 := f.extractLsb' 32 48 ++ data

/-- FRAME with `F[32..64)` replaced (44_host_commands.md R187, 30_encoding.md R91). -/
def setFrame1 (f : BitVec 80) (data : Word) : BitVec 80 :=
  f.extractLsb' 64 16 ++ data ++ f.extractLsb' 0 32

/-- FRAME with `F[64..80)` replaced by `data[15:0]` (44_host_commands.md R188, 30_encoding.md
R91). -/
def setFrame2 (f : BitVec 80) (data : Word) : BitVec 80 :=
  data.extractLsb' 0 16 ++ f.extractLsb' 0 64

/-- The number whose bit `j` is element `j` of a bit sequence. -/
def bitsToNat : Bits → Nat
  | [] => 0
  | b :: bs => b.toNat + 2 * bitsToNat bs

/-- A Frame from 80 bits in transmission order, `F[0]` the first (30_encoding.md R89). -/
def frameOfBits (l : Bits) : BitVec 80 := BitVec.ofNat 80 (bitsToNat l)

/-- `nib(o)`, the first transmitted bit least significant (30_encoding.md R89). -/
def nib (f : BitVec 80) (o : Nat) : Nat :=
  (f.getLsbD o).toNat + 2 * (f.getLsbD (o + 1)).toNat + 4 * (f.getLsbD (o + 2)).toNat
    + 8 * (f.getLsbD (o + 3)).toNat

/-- The offsets of the eight nibbles (30_encoding.md R89; UNVERIFIED against the original, log
entry 9). -/
def Digit.offset : Digit → Nat
  | .framesUnits => 0
  | .framesTens => 8
  | .secondsUnits => 16
  | .secondsTens => 24
  | .minutesUnits => 32
  | .minutesTens => 40
  | .hoursUnits => 48
  | .hoursTens => 56

/-- The value of one digit of a Frame (43_timecode_decoder.md R161). -/
def digit (f : BitVec 80) (d : Digit) : Nat := nib f d.offset

/-- The eight digits, in the order of 43_timecode_decoder.md R160 step 3. -/
def allDigits : List Digit :=
  [.framesUnits, .framesTens, .secondsUnits, .secondsTens,
   .minutesUnits, .minutesTens, .hoursUnits, .hoursTens]

/-! ## The register map -/

/-- The register at an index, or none for the unmapped indices 0x1B to 0xFF (10_state.md R30,
R53). -/
def regAt (idx : Index) : Option Reg :=
  match idx.toNat with
  | 0x00 => some .id
  | 0x01 => some .cmd
  | 0x02 => some .status
  | 0x03 => some .result
  | 0x04 => some .cfg0
  | 0x05 => some .cfg1
  | 0x06 => some .cfg2
  | 0x07 => some .sampleRate
  | 0x08 => some .sampleIn
  | 0x09 => some .wptr
  | 0x0A => some .edgeCount
  | 0x0B => some .pulseCount
  | 0x0C => some .pulseSum
  | 0x0D => some .shortCount
  | 0x0E => some .longCount
  | 0x0F => some .pct
  | 0x10 => some .accLen
  | 0x11 => some .deferCnt
  | 0x12 => some .frame0
  | 0x13 => some .frame1
  | 0x14 => some .frame2
  | 0x15 => some .eventHead
  | 0x16 => some .eventCount
  | 0x17 => some .winFlags
  | 0x18 => some .winFrames
  | 0x19 => some .winEvents
  | 0x1A => some .winInvalid
  | _ => none

/-- The access column of 10_state.md R30. -/
def accessOf : Reg → Access
  | .id => .readOnly
  | .cmd => .writeOnly
  | .status => .readOnly
  | .result => .readOnly
  | .cfg0 => .readWrite
  | .cfg1 => .readWrite
  | .cfg2 => .readWrite
  | .sampleRate => .readWrite
  | .sampleIn => .writeOnly
  | .wptr => .readOnly
  | .edgeCount => .readOnly
  | .pulseCount => .readOnly
  | .pulseSum => .readOnly
  | .shortCount => .readOnly
  | .longCount => .readOnly
  | .pct => .readOnly
  | .accLen => .readOnly
  | .deferCnt => .readOnly
  | .frame0 => .readWrite
  | .frame1 => .readWrite
  | .frame2 => .readWrite
  | .eventHead => .readOnly
  | .eventCount => .readOnly
  | .winFlags => .readOnly
  | .winFrames => .readOnly
  | .winEvents => .readOnly
  | .winInvalid => .readOnly

/-- The value a register reads (10_state.md R31 to R52); a write-only register reads 0
(20_memory.md R64, R67). Every field is zero-extended (44_host_commands.md R197). -/
def regValue (s : State) : Reg → Word
  | .id => Config.idValue
  | .cmd => 0#32
  | .status => statusWord s
  | .result => s.result.setWidth 32
  | .cfg0 => s.cfg0
  | .cfg1 => s.cfg1
  | .cfg2 => s.cfg2
  | .sampleRate => s.sampleRate
  | .sampleIn => 0#32
  | .wptr => (BitVec.ofNat 17 s.sb.length).setWidth 32
  | .edgeCount => s.edgeCount.setWidth 32
  | .pulseCount => s.pulseCount.setWidth 32
  | .pulseSum => s.pulseSum.setWidth 32
  | .shortCount => s.shortCount.setWidth 32
  | .longCount => s.longCount.setWidth 32
  | .pct => (s.longPct.setWidth 32 <<< 8) ||| s.shortPct.setWidth 32
  | .accLen => (BitVec.ofNat 17 s.acc.length).setWidth 32
  | .deferCnt => s.deferCnt.setWidth 32
  | .frame0 => s.frame.extractLsb' 0 32
  | .frame1 => s.frame.extractLsb' 32 32
  | .frame2 => (s.frame.extractLsb' 64 16).setWidth 32
  | .eventHead => s.evq.headD 0#32
  | .eventCount => (BitVec.ofNat 7 s.evq.length).setWidth 32
  | .winFlags => s.winFlags
  | .winFrames => s.winFrames
  | .winEvents => s.winEvents
  | .winInvalid => s.winInvalid

/-- `MemRead(idx, 4)`: the value a read of index `idx` returns, 0 for an unmapped index
(20_memory.md R64, R67). -/
def memRead (s : State) (idx : Index) : Word :=
  match regAt idx with
  | some r => regValue s r
  | none => 0#32

end Sys2Proof.Machine
end

