-- ==== Sys2Proof/Machine/Ops.lean ====
section
/-! DEFINITION. Machine/Ops.lean: the named operations the meanings share: recording an outcome
(the block's analogue of trap entry, 60_exceptions.md R206), raising a protocol error (R202),
clearing the cycle record, emptying the accumulator, appending an event, and taking the host's next
input. There is no return operation: "after any outcome or protocol error every command is accepted
again at once" (60_exceptions.md R207). -/

namespace Sys2Proof.Machine

/-- `outcome(c)`: RESULT <- c, and WIN_FLAGS[c] <- 1 for the codes WIN_FLAGS has a bit for
(00_scope.md R13, 60_exceptions.md R206). -/
def recordOutcome (c : Code) (s : State) : State :=
  { s with result := c.value, winFlags := s.winFlags ||| c.winFlag }

/-- `raise e`: the sticky flag, and RESULT for ERR_SEQ and ERR_CMD; nothing else changes
(60_exceptions.md R202). -/
def raise (e : ProtocolError) (s : State) : State :=
  match e with
  | .seq => { s with errSeq := true, result := Code.errSeq.value }
  | .cmd => { s with errCmd := true, result := Code.errCmd.value }
  | .bus => { s with errBus := true }

/-- The cycle record becomes 0 (40_edge_detector.md R114). -/
def clearCycleRecord (s : State) : State :=
  { s with winFlags := 0#32, winFrames := 0#32, winEvents := 0#32, winInvalid := 0#32 }

/-- A failed window empties the bit accumulator: ACC <- [], DEFER_CNT <- 0 (40_edge_detector.md
R113, 41_pulse_classifier.md R122). -/
def discardBits (s : State) : State := { s with acc := [], deferCnt := 0#4 }

/-- `last(n, L)`, the last `n` elements of `L` or all of it (00_scope.md R11). -/
def lastBits (n : Nat) (l : Bits) : Bits := l.drop (l.length - n)

/-- An event word enters EVQ; when EVQ is full the oldest event leaves and EV_OVF is set
(43_timecode_decoder.md R160 step 7, R165). -/
def pushEvent (e : Word) (s : State) : State :=
  if s.evq.length = Config.evqCap then { s with evq := s.evq.tail ++ [e], evOvf := true }
  else { s with evq := s.evq ++ [e] }

/-- A read returns a value to the host (44_host_commands.md R180; log entry 2). -/
def answer (v : Word) (s : State) : State := { s with hostOut := s.hostOut ++ [v] }

/-- Hardware reset: every state element of 10_state.md R20 takes its reset value
(70_reset_and_hazards.md R220); what the host still presents and what it has read stay. -/
def hardwareReset (s : State) : State :=
  { State.reset with hostIn := s.hostIn, hostOut := s.hostOut }

/-- The host's next input leaves the list of inputs; none when the host presents nothing. -/
def nextInput (s : State) : Option (HostInput × State) :=
  match s.hostIn with
  | [] => none
  | i :: rest => some (i, { s with hostIn := rest })

/-- `s` with the transaction whose bits are `w` (the low `nbits` of them) as the host's next input.
A number that is no 41-bit transaction word cannot be presented (20_memory.md R61). -/
def presentWord (s : State) (nbits w : Nat) : State :=
  if tableBits nbits w < 2 ^ 41 then
    { s with hostIn := .txn (BitVec.ofNat 41 (tableBits nbits w)) :: s.hostIn }
  else s

end Sys2Proof.Machine
end

