-- ==== Sys2Proof/Machine/EdgeDetector.lean ====
section
/-! DEFINITION. Machine/EdgeDetector.lean: unit ED, command EDGE (40_edge_detector.md R110 to
R115). -/

namespace Sys2Proof.Machine

/-- From a non-positive sample to a positive one, on signed values (40_edge_detector.md R111). -/
def isRising (a b : Sample) : Bool := a.toInt ≤ 0 && 0 < b.toInt

/-- The edges of a window whose first sample has index `i`, in ascending order; an edge is named by
the index of its non-positive sample (40_edge_detector.md R111). -/
def edgesFrom (i : Nat) : List Sample → List Nat
  | a :: b :: rest =>
    if isRising a b then i :: edgesFrom (i + 1) (b :: rest) else edgesFrom (i + 1) (b :: rest)
  | _ => []

/-- The edge list of the window in SB (40_edge_detector.md R110 step 3). -/
def edgesOf (sb : List Sample) : List Nat := edgesFrom 0 sb

/-- Steps 1 to 5 of 40_edge_detector.md R110: the cycle record is cleared, EL and EDGE_COUNT are
written and the window is consumed. -/
def takeWindow (s : State) : State :=
  { clearCycleRecord s with
    el := edgesOf s.sb, edgeCount := BitVec.ofNat 16 (edgesOf s.sb).length, sb := [] }

/-- The whole operation EDGE (40_edge_detector.md R110): NO_SIGNAL below two edges (R113), else
EDGES_OK. -/
def edgeUnit (s : State) : State :=
  if (edgesOf s.sb).length < 2 then
    recordOutcome .noSignal (discardBits { takeWindow s with elValid := false })
  else recordOutcome .edgesOk { takeWindow s with elValid := true }

/-- EDGE (40_edge_detector.md R110). -/
def execEdge (s : State) : StepResult := .next (edgeUnit s)

end Sys2Proof.Machine
end

