-- ==== Sys2Proof/Machine/FrameSynchronizer.lean ====
section
/-! DEFINITION. Machine/FrameSynchronizer.lean: unit FS, command SYNC (42_frame_synchronizer.md R140
to R149). -/

namespace Sys2Proof.Machine

/-- Steps 1 of 42_frame_synchronizer.md R140: unconsumed window bits are appended to ACC, which
keeps its newest `ACC_CAP` bits (R141). -/
def appendWindow (s : State) : State :=
  if s.blValid then
    if Config.accCap < (s.acc ++ s.bl).length then
      { s with acc := lastBits Config.accCap (s.acc ++ s.bl), accOvf := true, blValid := false }
    else { s with acc := s.acc ++ s.bl, blValid := false }
  else s

/-- The least offset at which the sync word stands, or none (42_frame_synchronizer.md R142,
30_encoding.md R88). -/
def findSync : Bits → Option Nat
  | [] => none
  | b :: bs =>
    if Config.syncWord.isPrefixOf (b :: bs) then some 0 else (findSync bs).map (· + 1)

/-- Step 3 of 42_frame_synchronizer.md R140: no sync word; only the last 15 bits stay (R146). -/
def syncAbsent (s : State) : State :=
  recordOutcome .noSyncFound
    { s with acc := lastBits (Config.syncLen - 1) s.acc, deferCnt := 0#4 }

/-- Step 5 of 42_frame_synchronizer.md R140: the 80 bits from offset `i` become the candidate
Frame and stay at the front of ACC (R143). -/
def extractFrame (i : Nat) (s : State) : State :=
  recordOutcome .frame
    { s with
      frame := frameOfBits ((s.acc.drop i).take Config.frameLen)
      frameValid := true
      acc := s.acc.drop i
      deferCnt := 0#4
      winFrames := s.winFrames + 1#32 }

/-- Step 6 of 42_frame_synchronizer.md R140: the match at `p` waits for more bits (R144). -/
def deferMatch (p : Nat) (s : State) : State :=
  recordOutcome .deferred { s with acc := s.acc.drop p, deferCnt := s.deferCnt + 1#4 }

/-- Step 7 of 42_frame_synchronizer.md R140: the retry bound is reached, the match ending at `i` is
given up (R145). -/
def giveUpMatch (i : Nat) (s : State) : State :=
  recordOutcome .noSyncFound { s with acc := s.acc.drop i, deferCnt := 0#4 }

/-- Steps 2 to 7 of 42_frame_synchronizer.md R140, on ACC as it stands after the append. -/
def searchAcc (s : State) : State :=
  match findSync s.acc with
  | none => syncAbsent s
  | some p =>
    if p + Config.syncLen + Config.frameLen ≤ s.acc.length then extractFrame (p + Config.syncLen) s
    else if s.deferCnt < deferMax s then deferMatch p s
    else giveUpMatch (p + Config.syncLen) s

/-- The whole operation SYNC (42_frame_synchronizer.md R140). -/
def syncUnit (s : State) : State := searchAcc (appendWindow s)

/-- SYNC (42_frame_synchronizer.md R140). -/
def execSync (s : State) : StepResult := .next (syncUnit s)

end Sys2Proof.Machine
end

