-- ==== Sys2Proof/Machine/PulseClassifier.lean ====
section
/-! DEFINITION. Machine/PulseClassifier.lean: unit PC, command CLASS (41_pulse_classifier.md R120 to
R133). Durations are exact integers, and nothing wraps, saturates or rounds but the two floors of
R129 (R131). -/

namespace Sys2Proof.Machine

/-- `d[k] = EL[k+1] - EL[k]` (41_pulse_classifier.md R121). -/
def durations (el : List Nat) : List Int :=
  List.zipWith (fun (a b : Nat) => (b : Int) - (a : Int)) el el.tail

/-- `EL[n] - EL[0]`, the sum of the durations (41_pulse_classifier.md R120 step 4). -/
def spanOf (el : List Nat) : Int := (el.getLastD 0 : Int) - (el.headD 0 : Int)

/-! ## Adaptive-threshold strategy -/

/-- Twice the median: twice the middle element of the sorted durations for an odd count, the sum of
the two middle elements for an even count (41_pulse_classifier.md R125). -/
def med2 (d : List Int) : Int :=
  if d.length % 2 = 1 then 2 * (d.insertionSort (· ≤ ·)).getD ((d.length - 1) / 2) 0
  else (d.insertionSort (· ≤ ·)).getD (d.length / 2 - 1) 0
    + (d.insertionSort (· ≤ ·)).getD (d.length / 2) 0

/-- SHORT exactly when `128 * d[k] <= med2 * K` (41_pulse_classifier.md R124); `m` is `med2`. -/
def shortByThreshold (m : Int) (k : BitVec 8) (x : Int) : Bool := 128 * x ≤ m * (k.toNat : Int)

/-- The labels of the adaptive-threshold strategy, true for SHORT (41_pulse_classifier.md R124). -/
def thresholdLabels (k : BitVec 8) (d : List Int) : List Bool := d.map (shortByThreshold (med2 d) k)

/-! ## Two-cluster strategy -/

/-- The two clusters, each a sum and a count; the means are `sA / cA` and `sB / cB`
(41_pulse_classifier.md R126). -/
structure Clusters where
  sA : Int
  cA : Nat
  sB : Int
  cB : Nat
  deriving DecidableEq, Repr

/-- Seeds: A at the least duration, B at the greatest (41_pulse_classifier.md R126). -/
def seeds (d : List Int) : Clusters := ⟨d.min?.getD 0, 1, d.max?.getD 0, 1⟩

/-- The duration is at most as far from the mean of A as from the mean of B, both sides multiplied
by `cA * cB`; a tie goes to A (41_pulse_classifier.md R126). -/
def nearA (c : Clusters) (x : Int) : Bool :=
  (x * (c.cA : Int) - c.sA).natAbs * c.cB ≤ (x * (c.cB : Int) - c.sB).natAbs * c.cA

/-- `inA` of one iteration, for every duration with the means as they stood at its start
(41_pulse_classifier.md R126). -/
def assign (c : Clusters) (d : List Int) : List Bool := d.map (nearA c)

/-- The sums and counts after one iteration; a cluster that receives nothing keeps its own
(41_pulse_classifier.md R126). -/
def updateClusters (c : Clusters) (d : List Int) : Clusters :=
  let a := d.filter (fun x => nearA c x)
  let b := d.filter (fun x => !nearA c x)
  { sA := if a.isEmpty then c.sA else a.sum
    cA := if a.isEmpty then c.cA else a.length
    sB := if b.isEmpty then c.sB else b.sum
    cB := if b.isEmpty then c.cB else b.length }

/-- The loop of 41_pulse_classifier.md R126 with `more` further iterations allowed after this one:
it leaves after an iteration whose assignment equals the previous one, or at the cap. The result is
the final clusters and the assignment of the last iteration run. -/
def twoMeansLoop (d : List Int) : Nat → Clusters → Option (List Bool) → Clusters × List Bool
  | 0, c, _ => (updateClusters c d, assign c d)
  | more + 1, c, prev =>
    if prev = some (assign c d) then (updateClusters c d, assign c d)
    else twoMeansLoop d more (updateClusters c d) (some (assign c d))

/-- The clusters and the assignment of the two-cluster strategy; the effective cap is
`max(ITER_CAP, 1)` (41_pulse_classifier.md R126). -/
def twoMeans (cap : BitVec 4) (d : List Int) : Clusters × List Bool :=
  twoMeansLoop d (max cap.toNat 1 - 1) (seeds d) none

/-- The labels of the two-cluster strategy, true for SHORT: "the cluster with the lower mean is
SHORT" (41_pulse_classifier.md R127). -/
def clusterLabels (cap : BitVec 4) (d : List Int) : List Bool :=
  let r := twoMeans cap d
  if r.1.sA * (r.1.cB : Int) ≤ r.1.sB * (r.1.cA : Int) then r.2 else r.2.map (fun b => !b)

/-! ## The operation CLASS -/

/-- One label per duration, true for SHORT, by the selected strategy (41_pulse_classifier.md
R123). -/
def labels (s : State) : List Bool :=
  if twoClusterSelected s then clusterLabels (iterCap s) (durations s.el)
  else thresholdLabels (multiplierK s) (durations s.el)

/-- The bit of a pulse: SHORT gives 1, LONG gives 0 (41_pulse_classifier.md R128, 30_encoding.md
R87). -/
def bitOfLabel (short : Bool) : Bool := short

/-- `floor(100 * c / n)` in 7 bits (41_pulse_classifier.md R129). -/
def percent (c n : Nat) : BitVec 7 := BitVec.ofNat 7 (100 * c / n)

/-- `PCT_LO * n <= 100 * SHORT_COUNT <= PCT_HI * n` (41_pulse_classifier.md R130). -/
def inBand (lo hi : BitVec 7) (c n : Nat) : Bool :=
  lo.toNat * n ≤ 100 * c && 100 * c ≤ hi.toNat * n

/-- The number of pulses of the edge list, `n = |EL| - 1` (41_pulse_classifier.md R121). -/
def pulsesOf (el : List Nat) : Nat := el.length - 1

/-- Steps 3 and 4 of 41_pulse_classifier.md R120: the edge list is consumed, PULSE_COUNT and
PULSE_SUM are written. -/
def takeEdges (s : State) : State :=
  { s with
    elValid := false
    pulseCount := BitVec.ofNat 16 (pulsesOf s.el)
    pulseSum := BitVec.ofInt 17 (spanOf s.el) }

/-- Step 5 of 41_pulse_classifier.md R120: the window is rejected (R122). -/
def rejectWindow (s : State) : State :=
  recordOutcome .insufficientPulses (discardBits
    { s with
      blValid := false, shortCount := 0#16, longCount := 0#16
      shortPct := 0#7, longPct := 0#7, ltcLike := false })

/-- Steps 7 to 9 of 41_pulse_classifier.md R120 for the labels `ls` of `n` pulses (R128 to R130). -/
def acceptWindow (ls : List Bool) (n : Nat) (s : State) : State :=
  let c := ls.count true
  recordOutcome .bitsOk
    { s with
      bl := ls.map bitOfLabel
      blValid := true
      shortCount := BitVec.ofNat 16 c
      longCount := BitVec.ofNat 16 (n - c)
      shortPct := percent c n
      longPct := percent (n - c) n
      ltcLike := inBand (pctLo s) (pctHi s) c n }

/-- The whole operation CLASS (41_pulse_classifier.md R120). -/
def classUnit (s : State) : State :=
  if s.elValid then
    if pulsesOf s.el < (minPulses s).toNat then rejectWindow (takeEdges s)
    else acceptWindow (labels s) (pulsesOf s.el) (takeEdges s)
  else raise .seq s

/-- CLASS (41_pulse_classifier.md R120). -/
def execClassify (s : State) : StepResult := .next (classUnit s)

end Sys2Proof.Machine
end

