-- ==== Sys2Proof/Machine/TimecodeDecoder.lean ====
section
/-! DEFINITION. Machine/TimecodeDecoder.lean: unit TD, command DECODE (43_timecode_decoder.md R160 to
R168). -/

namespace Sys2Proof.Machine

/-- `fmax`, the greatest legal frame number of a rate code (30_encoding.md R93; code 2 UNVERIFIED
against the original, log entry 9). -/
def fmax (rate : BitVec 2) : Nat :=
  match rate.toNat with
  | 0 => 23
  | 1 => 24
  | _ => 29

/-- Frames `fu + 10 * ft` (43_timecode_decoder.md R163). -/
def framesField (f : BitVec 80) : Nat := digit f .framesUnits + 10 * digit f .framesTens

/-- Seconds `su + 10 * st` (43_timecode_decoder.md R163). -/
def secondsField (f : BitVec 80) : Nat := digit f .secondsUnits + 10 * digit f .secondsTens

/-- Minutes `mu + 10 * mt` (43_timecode_decoder.md R163). -/
def minutesField (f : BitVec 80) : Nat := digit f .minutesUnits + 10 * digit f .minutesTens

/-- Hours `hu + 10 * ht` (43_timecode_decoder.md R163). -/
def hoursField (f : BitVec 80) : Nat := digit f .hoursUnits + 10 * digit f .hoursTens

/-- Every nibble is a decimal digit (43_timecode_decoder.md R162). -/
def digitsOk (f : BitVec 80) : Bool := allDigits.all (fun d => digit f d ≤ 9)

/-- Every field is in range for the rate code (43_timecode_decoder.md R164). -/
def rangeOk (rate : BitVec 2) (f : BitVec 80) : Bool :=
  hoursField f ≤ 23 && minutesField f ≤ 59 && secondsField f ≤ 59 && framesField f ≤ fmax rate

/-- The event word of a timecode (30_encoding.md R92). -/
def eventWord (rate : BitVec 2) (h m s f : Nat) : Word :=
  BitVec.ofNat 32 (2 ^ 31 + rate.toNat * 2 ^ 22 + h * 2 ^ 17 + m * 2 ^ 11 + s * 2 ^ 5 + f)

/-- The event word of a Frame that passed both checks (43_timecode_decoder.md R165). -/
def eventOf (rate : BitVec 2) (f : BitVec 80) : Word :=
  eventWord rate (hoursField f) (minutesField f) (secondsField f) (framesField f)

/-- The Frame passed both checks: its event enters EVQ (43_timecode_decoder.md R160 step 7,
R165). -/
def acceptFrame (s : State) : State :=
  let t := pushEvent (eventOf (rateCode s) s.frame) s
  recordOutcome .event { t with winEvents := t.winEvents + 1#32 }

/-- The Frame failed a check: no event (43_timecode_decoder.md R160 step 7, R166). -/
def rejectFrame (s : State) : State :=
  recordOutcome .invalidFrame { s with winInvalid := s.winInvalid + 1#32 }

/-- The whole operation DECODE (43_timecode_decoder.md R160). -/
def decodeUnit (s : State) : State :=
  if s.frameValid then
    if digitsOk s.frame && rangeOk (rateCode s) s.frame then
      acceptFrame { s with frameValid := false }
    else rejectFrame { s with frameValid := false }
  else raise .seq s

/-- DECODE (43_timecode_decoder.md R160). -/
def execDecode (s : State) : StepResult := .next (decodeUnit s)

end Sys2Proof.Machine
end

