-- ==== Sys2Proof/Machine/Commands.lean ====
section
/-! DEFINITION. Machine/Commands.lean: the control commands NOP, CLEAR, RUN, POP and the reserved
command words (44_host_commands.md R189 to R194, 30_encoding.md R83). -/

namespace Sys2Proof.Machine

/-- NOP: nothing, RESULT and WIN_FLAGS included (44_host_commands.md R189). -/
def execNop (s : State) : StepResult := .next s

/-- CLEAR: every state element takes its reset value but the four configuration registers
(44_host_commands.md R190). -/
def clearAll (s : State) : State :=
  { hardwareReset s with cfg0 := s.cfg0, cfg1 := s.cfg1, cfg2 := s.cfg2, sampleRate := s.sampleRate }

/-- CLEAR (44_host_commands.md R190). -/
def execClear (s : State) : StepResult := .next (clearAll s)

/-- Step 3 of 44_host_commands.md R191: SYNC, and while it answers FRAME, DECODE and SYNC again; at
most `fuel` SYNCs run. -/
def syncDecodeLoop : Nat → State → State
  | 0, s => s
  | fuel + 1, s =>
    if (syncUnit s).result = Code.frame.value then syncDecodeLoop fuel (decodeUnit (syncUnit s))
    else syncUnit s

/-- `floor(|ACC| / 16) + 1` with `|ACC|` at most what it is after the append: no RUN needs more
SYNCs (44_host_commands.md R193; log entry 10). -/
def syncBound (s : State) : Nat := (s.acc.length + s.bl.length) / 16 + 1

/-- The whole operation RUN: EDGE; CLASS if EDGE answered 1; the SYNC and DECODE loop if CLASS
answered 2 (44_host_commands.md R191). -/
def runUnit (s : State) : State :=
  let e := edgeUnit s
  if e.result = Code.edgesOk.value then
    let c := classUnit e
    if c.result = Code.bitsOk.value then syncDecodeLoop (syncBound c) c else c
  else e

/-- RUN (44_host_commands.md R191). -/
def execRun (s : State) : StepResult := .next (runUnit s)

/-- POP: the oldest event leaves EVQ, or ERR_SEQ when it is empty (44_host_commands.md R192). -/
def execPop (s : State) : StepResult :=
  match s.evq with
  | [] => .next (raise .seq s)
  | _ :: rest => .next { s with evq := rest }

/-- A reserved command word raises ERR_CMD (30_encoding.md R83). -/
def execCmdReserved (_data : Word) (s : State) : StepResult := .next (raise .cmd s)

end Sys2Proof.Machine
end

