-- ==== Sys2Proof/Machine/Transactions.lean ====
section
/-! DEFINITION. Machine/Transactions.lean: register reads and writes (44_host_commands.md R180 to
R188; 20_memory.md R64 to R67). -/

namespace Sys2Proof.Machine

/-- RD: returns `MemRead(idx, 4)`; no state element changes (44_host_commands.md R180). -/
def execRd (idx : Index) (s : State) : StepResult := .next (answer (memRead s idx) s)

/-- WR_CFG0: CFG0 <- data & 0x00FFFF07 (44_host_commands.md R183). -/
def execWrCfg0 (data : Word) (s : State) : StepResult := .next { s with cfg0 := data &&& cfg0Mask }

/-- WR_CFG1: CFG1 <- data & 0x0000FFFF (44_host_commands.md R184). -/
def execWrCfg1 (data : Word) (s : State) : StepResult := .next { s with cfg1 := data &&& cfg1Mask }

/-- WR_CFG2: CFG2 <- data & 0x00007F7F (44_host_commands.md R185). -/
def execWrCfg2 (data : Word) (s : State) : StepResult := .next { s with cfg2 := data &&& cfg2Mask }

/-- WR_SAMPLE_RATE: SAMPLE_RATE <- data & 0x00FFFFFF (44_host_commands.md R186). -/
def execWrSampleRate (data : Word) (s : State) : StepResult :=
  .next { s with sampleRate := data &&& sampleRateMask }

/-- PUSH: a sample enters SB, or SB_OVF is set when SB is full (44_host_commands.md R182). -/
def execPush (data : Word) (s : State) : StepResult :=
  if s.sb.length < Config.sbCap then .next { s with sb := s.sb ++ [sampleOf data] }
  else .next { s with sbOvf := true }

/-- WR_FRAME0: `F[j] <- data[j]`; FRAME_VALID is not changed (44_host_commands.md R187). -/
def execWrFrame0 (data : Word) (s : State) : StepResult :=
  .next { s with frame := setFrame0 s.frame data }

/-- WR_FRAME1: `F[32+j] <- data[j]`; FRAME_VALID is not changed (44_host_commands.md R187). -/
def execWrFrame1 (data : Word) (s : State) : StepResult :=
  .next { s with frame := setFrame1 s.frame data }

/-- WR_FRAME2: `F[64+j] <- data[j]` and FRAME_VALID <- 1 (44_host_commands.md R188). -/
def execWrFrame2 (data : Word) (s : State) : StepResult :=
  .next { s with frame := setFrame2 s.frame data, frameValid := true }

/-- WR_ILLEGAL: a write to a read-only register or an unmapped index raises ERR_BUS
(20_memory.md R66). -/
def execWrIllegal (_idx : Index) (_data : Word) (s : State) : StepResult := .next (raise .bus s)

end Sys2Proof.Machine
end

