-- ==== Sys2Proof/Machine/Dispatch.lean ====
section
/-! DEFINITION. Machine/Dispatch.lean: one arm per constructor of `Instr`. -/

namespace Sys2Proof.Machine

def exec (i : Instr) (s : State) : Host.Outcome State Fault Refusal :=
  match i with
  | .rd idx => Sys2Proof.Machine.execRd idx s
  | .wrCfg0 data => Sys2Proof.Machine.execWrCfg0 data s
  | .wrCfg1 data => Sys2Proof.Machine.execWrCfg1 data s
  | .wrCfg2 data => Sys2Proof.Machine.execWrCfg2 data s
  | .wrSampleRate data => Sys2Proof.Machine.execWrSampleRate data s
  | .push data => Sys2Proof.Machine.execPush data s
  | .wrFrame0 data => Sys2Proof.Machine.execWrFrame0 data s
  | .wrFrame1 data => Sys2Proof.Machine.execWrFrame1 data s
  | .wrFrame2 data => Sys2Proof.Machine.execWrFrame2 data s
  | .nop => Sys2Proof.Machine.execNop s
  | .clear => Sys2Proof.Machine.execClear s
  | .edge => Sys2Proof.Machine.execEdge s
  | .classify => Sys2Proof.Machine.execClassify s
  | .sync => Sys2Proof.Machine.execSync s
  | .decode => Sys2Proof.Machine.execDecode s
  | .run => Sys2Proof.Machine.execRun s
  | .pop => Sys2Proof.Machine.execPop s
  | .cmdReserved data => Sys2Proof.Machine.execCmdReserved data s
  | .wrIllegal idx data => Sys2Proof.Machine.execWrIllegal idx data s

end Sys2Proof.Machine
end

