-- ==== Sys2Proof/Machine/Step.lean ====
section
/-! DEFINITION. Machine/Step.lean: one step of the machine. The block acts only in response to the
host (00_scope.md R8); one host transaction is one atomic step (R9). -/

namespace Sys2Proof.Machine

/-- One step: the host's next input takes effect. A transaction is decoded and executed whole
(00_scope.md R9, 20_memory.md R70); the reset input gives the reset values (70_reset_and_hazards.md
R220); with no input "the block is idle between transactions and all state survives idleness"
(60_exceptions.md R213). -/
def step (s : State) : Host.Outcome State Fault Refusal :=
  match nextInput s with
  | none => .next s
  | some (.txn t, s') => exec (decode t) s'
  | some (.reset, s') => .next (hardwareReset s')

/-- `s` with the transaction `w` as the host's next input, so that the next step decodes and runs
exactly it (log entry 1). -/
def State.withFetchWord (s : State) (nbits w : Nat) : State := presentWord s nbits w

end Sys2Proof.Machine
end

