-- ==== Sys2Proof/Safety.lean ====
section
/-! DEFINITION. Safety.lean: the terms in which claims about LTCFE are stated. First the invariant
`Invariant` that rules out the states no run reaches; then the words of the rules themselves (an edge, a
duration, a sync word present at an offset, a nibble, the two-means iteration over exact rational
means, the staged form of RUN), written from the rules and not from the machine's functions, so
that a claim compares the two. -/

namespace Sys2Proof.Machine

/-! ## Words of the rules -/

/-- `v[hi:lo]` of a register (00_scope.md R10). -/
def field (v : Word) (hi lo : Nat) : Nat := v.toNat / 2 ^ lo % 2 ^ (hi + 1 - lo)

/-- `sext_16(v)` (00_scope.md R12). -/
def sext16 (v : Word) : Int :=
  if field v 15 15 = 0 then (field v 15 0 : Int) else (field v 15 0 : Int) - 65536

/-- A read of index `idx` completes, returns `v` to the host (`hostOut`, log entry 2) and changes
nothing else (20_memory.md R64). -/
def ReadsAs (s : State) (idx : Index) (v : Word) : Prop :=
  exec (.rd idx) s = .next { s with hostOut := s.hostOut ++ [v] }

/-- Index `i` is an edge of the window `w` (40_edge_detector.md R111). -/
abbrev IsEdge (w : List Sample) (i : Nat) : Prop :=
  i + 1 < w.length ∧ (w.getD i 0#16).toInt ≤ 0 ∧ 0 < (w.getD (i + 1) 0#16).toInt

/-- The edges of a window in ascending order (40_edge_detector.md R110 step 3). -/
def risingEdges (w : List Sample) : List Nat := (List.range w.length).filter (fun i => IsEdge w i)

/-- `d[k] = EL[k+1] - EL[k]` for `k` in `0..n-1`, `n = |EL| - 1` (41_pulse_classifier.md R121). -/
def gaps (el : List Nat) : List Int :=
  (List.range (el.length - 1)).map (fun k => (el.getD (k + 1) 0 : Int) - (el.getD k 0 : Int))

/-- Twice the median of an ascending list (41_pulse_classifier.md R125). -/
def twiceMedian (s : List Int) : Int :=
  if s.length % 2 = 1 then 2 * s.getD ((s.length - 1) / 2) 0
  else s.getD (s.length / 2 - 1) 0 + s.getD (s.length / 2) 0

/-- The pair of rational means of the two-cluster strategy (41_pulse_classifier.md R126). -/
structure Means where
  a : ℚ
  b : ℚ

/-- The mean of the durations a cluster received, or the mean it had if it received none
(41_pulse_classifier.md R126). -/
def meanOr (l : List Int) (old : ℚ) : ℚ := if l = [] then old else (l.sum : ℚ) / (l.length : ℚ)

/-- `|x - mean of A| <= |x - mean of B|` (41_pulse_classifier.md R126). -/
def nearerA (m : Means) (x : Int) : Bool := decide (|(x : ℚ) - m.a| ≤ |(x : ℚ) - m.b|)

/-- The means after `t` iterations, seeded at the least and the greatest duration
(41_pulse_classifier.md R126). -/
def meansAfter (d : List Int) : Nat → Means
  | 0 => ⟨(d.min?.getD 0 : ℚ), (d.max?.getD 0 : ℚ)⟩
  | t + 1 =>
    ⟨meanOr (d.filter (fun x => nearerA (meansAfter d t) x)) (meansAfter d t).a,
     meanOr (d.filter (fun x => !nearerA (meansAfter d t) x)) (meansAfter d t).b⟩

/-- The assignment `inA` of iteration `t`, counted from 1 (41_pulse_classifier.md R126). -/
def assignmentAt (d : List Int) (t : Nat) : List Bool :=
  d.map (fun x => nearerA (meansAfter d (t - 1)) x)

/-- Iteration `t` repeats the assignment of the one before it; it cannot be the first
(41_pulse_classifier.md R126). -/
abbrev Converged (d : List Int) (t : Nat) : Prop :=
  2 ≤ t ∧ assignmentAt d t = assignmentAt d (t - 1)

/-- Iteration `t` is the last one run under the cap `cap` (41_pulse_classifier.md R126): the first
that converged or reached `max(cap, 1)`. -/
abbrev LastIteration (cap : Nat) (d : List Int) (t : Nat) : Prop :=
  1 ≤ t ∧ t ≤ max cap 1 ∧ (t = max cap 1 ∨ Converged d t) ∧ ∀ u < t, ¬ Converged d u

/-- The state CLASS leaves when the window is trusted and gives the bits `bl`
(41_pulse_classifier.md R120 steps 3, 4, 7, 8, 9, R129, R130). -/
def classified (bl : Bits) (s : State) : State :=
  { s with
    elValid := false
    pulseCount := BitVec.ofNat 16 (s.el.length - 1)
    pulseSum := BitVec.ofInt 17 ((s.el.getLastD 0 : Int) - (s.el.headD 0 : Int))
    bl := bl
    blValid := true
    shortCount := BitVec.ofNat 16 (bl.count true)
    longCount := BitVec.ofNat 16 (bl.count false)
    shortPct := BitVec.ofNat 7 (100 * bl.count true / (s.el.length - 1))
    longPct := BitVec.ofNat 7 (100 * bl.count false / (s.el.length - 1))
    ltcLike := decide (field s.cfg2 6 0 * (s.el.length - 1) ≤ 100 * bl.count true
      ∧ 100 * bl.count true ≤ field s.cfg2 14 8 * (s.el.length - 1))
    result := 2#4
    winFlags := s.winFlags ||| 0x00000004#32 }

/-- The sync word is present at offset `p` of `a` (30_encoding.md R88). -/
abbrev SyncAt (a : Bits) (p : Nat) : Prop :=
  p + 16 ≤ a.length ∧ ∀ j < 16, a[p + j]? = Config.syncWord[j]?

/-- `p` is the least offset at which the sync word is present (42_frame_synchronizer.md R142). -/
abbrev FirstSyncAt (a : Bits) (p : Nat) : Prop := SyncAt a p ∧ ∀ q < p, ¬ SyncAt a q

/-- ACC after the append of 42_frame_synchronizer.md R141. -/
def afterAppend (s : State) : Bits :=
  if s.blValid then (s.acc ++ s.bl).drop ((s.acc ++ s.bl).length - Config.accCap) else s.acc

/-- The state after step 1 of 42_frame_synchronizer.md R140 (R141). -/
def appended (s : State) : State :=
  { s with
    acc := afterAppend s
    blValid := false
    accOvf := s.accOvf || (s.blValid && decide (Config.accCap < s.acc.length + s.bl.length)) }

/-- The nibble at offset `o` of a Frame, `F[o]` least significant (30_encoding.md R89). -/
def nibbleAt (f : BitVec 80) (o : Nat) : Nat := f.toNat / 2 ^ o % 16

/-- A field of a Frame: units nibble at `lo`, tens nibble at `hi` (43_timecode_decoder.md R163). -/
def fieldAt (f : BitVec 80) (lo hi : Nat) : Nat := nibbleAt f lo + 10 * nibbleAt f hi

/-- `fmax` of a rate code (30_encoding.md R93). -/
def fmaxOf (rate : Nat) : Nat := [23, 24, 29, 29].getD rate 0

/-- The digit check and the range check both pass at rate code `rate` (43_timecode_decoder.md R162,
R164). -/
abbrev ValidFrame (rate : Nat) (f : BitVec 80) : Prop :=
  (∀ o ∈ [0, 8, 16, 24, 32, 40, 48, 56], nibbleAt f o ≤ 9)
    ∧ fieldAt f 48 56 ≤ 23 ∧ fieldAt f 32 40 ≤ 59 ∧ fieldAt f 16 24 ≤ 59
    ∧ fieldAt f 0 8 ≤ fmaxOf rate

/-- The event number of a Frame (43_timecode_decoder.md R160 step 7). -/
def eventNumber (rate : Nat) (f : BitVec 80) : Nat :=
  2 ^ 31 + rate * 2 ^ 22 + fieldAt f 48 56 * 2 ^ 17 + fieldAt f 32 40 * 2 ^ 11
    + fieldAt f 16 24 * 2 ^ 5 + fieldAt f 0 8

/-- The fields of an event word (30_encoding.md R92). -/
abbrev IsEventWord (e : Word) : Prop :=
  field e 31 31 = 1 ∧ field e 30 24 = 0 ∧ field e 21 17 ≤ 23 ∧ field e 16 11 ≤ 59
    ∧ field e 10 5 ≤ 59 ∧ field e 4 0 ≤ fmaxOf (field e 23 22)

/-- The loop of RUN written as the host would issue it: `sync`, and while RESULT reads 3, `decode`
and `sync` (44_host_commands.md R194). -/
inductive StagedSearch : State → State → Prop where
  | stops {s t : State} : exec .sync s = .next t → t.result ≠ 3#4 → StagedSearch s t
  | again {s u v t : State} : exec .sync s = .next u → u.result = 3#4 → exec .decode u = .next v →
      StagedSearch v t → StagedSearch s t

/-- The stage commands of one analysis cycle as the host would issue them: `edge`, then (if RESULT
reads 1) `class`, then (if RESULT reads 2) the search (44_host_commands.md R194). -/
inductive StagedCycle : State → State → Prop where
  | edgeFails {s e : State} : exec .edge s = .next e → e.result ≠ 1#4 → StagedCycle s e
  | classFails {s e c : State} : exec .edge s = .next e → e.result = 1#4 →
      exec .classify e = .next c → c.result ≠ 2#4 → StagedCycle s c
  | searches {s e c t : State} : exec .edge s = .next e → e.result = 1#4 →
      exec .classify e = .next c → c.result = 2#4 → StagedSearch c t → StagedCycle s t

/-! ## The invariant -/

/-- The outcome codes a step can leave in RESULT (30_encoding.md R94). -/
def legalCodes : List (BitVec 4) :=
  [0#4, 1#4, 2#4, 3#4, 4#4, 5#4, 8#4, 9#4, 10#4, 11#4, 14#4, 15#4]

/-- What holds of every state a run reaches: capacities and ranges of 10_state.md R21 to R27, what
the valid flags promise, legal codes, and reserved bits at 0. -/
structure Invariant (s : State) : Prop where
  /-- SB holds at most `SB_CAP` samples (10_state.md R21). -/
  sb_capacity : s.sb.length ≤ Config.sbCap
  /-- EL ascends, two edges at least 2 apart (10_state.md R22, 40_edge_detector.md R112). -/
  el_gaps : s.el.Pairwise (fun a b => a + 2 ≤ b)
  /-- Every edge is an index 0 to `SB_CAP - 2` (10_state.md R22). -/
  el_range : ∀ i ∈ s.el, i + 2 ≤ Config.sbCap
  /-- EDGE_COUNT is `|EL|` as ED left it (10_state.md R22). -/
  edge_count : s.edgeCount.toNat = s.el.length
  /-- EL_VALID: EL holds at least 2 edges (10_state.md R33). -/
  el_valid : s.elValid = true → 2 ≤ s.el.length
  /-- BL holds at most `BL_CAP` bits (10_state.md R23). -/
  bl_capacity : s.bl.length ≤ Config.blCap
  /-- BL_VALID: BL holds the bits of the last classified window (10_state.md R23). -/
  bl_valid : s.blValid = true → s.bl ≠ [] ∧ s.bl.length = s.pulseCount.toNat
  /-- PULSE_COUNT ranges over 0 to 32767 (10_state.md R42). -/
  pulse_count : s.pulseCount.toNat ≤ Config.blCap
  /-- PULSE_SUM ranges over 0 to 65534 (10_state.md R43). -/
  pulse_sum : s.pulseSum.toNat + 2 ≤ Config.sbCap
  /-- The label counts are both 0 or add up to PULSE_COUNT (10_state.md R44). -/
  label_counts : (s.shortCount = 0#16 ∧ s.longCount = 0#16) ∨
    s.shortCount.toNat + s.longCount.toNat = s.pulseCount.toNat
  /-- SHORT_PCT is at most 100 (10_state.md R24). -/
  short_pct : s.shortPct.toNat ≤ 100
  /-- LONG_PCT is at most 100 (10_state.md R24). -/
  long_pct : s.longPct.toNat ≤ 100
  /-- ACC holds at most `ACC_CAP` bits (10_state.md R25). -/
  acc_capacity : s.acc.length ≤ Config.accCap
  /-- A deferred match stands at the front of ACC with fewer than 80 bits after it
  (42_frame_synchronizer.md R144). -/
  deferred : s.deferCnt ≠ 0#4 → SyncAt s.acc 0 ∧ s.acc.length ≤ 95
  /-- EVQ holds at most `EVQ_CAP` events (10_state.md R27). -/
  evq_capacity : s.evq.length ≤ Config.evqCap
  /-- Every word in EVQ is an event word (30_encoding.md R92). -/
  evq_words : ∀ e ∈ s.evq, IsEventWord e
  /-- RESULT holds a code of 30_encoding.md R94. -/
  result_code : s.result ∈ legalCodes
  /-- WIN_FLAGS has 1 bits only at recorded codes (10_state.md R51). -/
  win_flags : s.winFlags &&& 0xFFFFF0C1#32 = 0#32
  /-- The reserved bits of CFG0 read 0 (10_state.md R35). -/
  cfg0_reserved : s.cfg0 &&& 0xFF0000F8#32 = 0#32
  /-- The reserved bits of CFG1 read 0 (10_state.md R36). -/
  cfg1_reserved : s.cfg1 &&& 0xFFFF0000#32 = 0#32
  /-- The reserved bits of CFG2 read 0 (10_state.md R37). -/
  cfg2_reserved : s.cfg2 &&& 0xFFFF8080#32 = 0#32
  /-- The reserved bits of SAMPLE_RATE read 0 (10_state.md R38). -/
  sample_rate_reserved : s.sampleRate &&& 0xFF000000#32 = 0#32

end Sys2Proof.Machine
end

