-- ==== Sys2Proof/Certificates/Slice0/Obligations.lean ====
section
/-! DEFINITION. Obligations.lean: the statements about LTCFE, in the order of the spec's files:
encodings, the step, reads, writes, the four units, the commands, then the whole machine. The words
they use (`risingEdges`, `gaps`, `SyncAt`, `nibbleAt`, `StagedCycle`, `Invariant`) stand in Safety.lean,
written from the rules. `hostIn` and `hostOut` are the model's own fields (log entries 1 and 2). -/

open Sys2Proof Sys2Proof.Machine

/-! ## Encodings -/

/-- Decode and encode agree on every well-formed transaction (30_encoding.md R80 to R86). -/
def Obligations.DecodeOfEncodeIsIdentity : Prop :=
  ∀ i : Instr, i.wellFormed = true → decode (encode i) = i

/-- Every 41-bit word decodes to a well-formed transaction, and a write loses no bit: encoding what
it decodes to gives the word back (30_encoding.md R80, R86). -/
def Obligations.EveryWordDecodesAndWritesRoundTrip : Prop :=
  ∀ t : TxnWord, (decode t).wellFormed = true ∧ (t.getLsbD 40 = true → encode (decode t) = t)

/-- The decoder answers the first row of the opcode table that the word fits
(spec/opcode_table.json, fallback rows last). -/
def Obligations.DecodeFollowsOpcodeTable : Prop :=
  ∀ t : TxnWord,
    (opcodeTable.find? (fun r => r.fits t)).map Row.mnemonic = some (mnemonicOf (decode t))

/-- Transaction words written out in the spec decode to the transactions they stand for
(30_encoding.md R98; 95_test_vectors.md P1, P2, P3). -/
def Obligations.SpecWordsDecode : Prop :=
  decode 0x10100000000#41 = .nop ∧ decode 0x10100000001#41 = .clear ∧
  decode 0x10100000002#41 = .edge ∧ decode 0x10100000003#41 = .classify ∧
  decode 0x10100000004#41 = .sync ∧ decode 0x10100000005#41 = .decode ∧
  decode 0x10100000006#41 = .run ∧ decode 0x10100000007#41 = .pop ∧
  decode 0x1080000FFFF#41 = .push 0x0000FFFF#32 ∧ decode 0x104002A6002#41 = .wrCfg0 0x002A6002#32 ∧
  decode 0x1050000005A#41 = .wrCfg1 90#32 ∧ decode 0x11205090204#41 = .wrFrame0 0x05090204#32 ∧
  decode 0x11302030509#41 = .wrFrame1 0x02030509#32 ∧
  decode 0x1140000BFFC#41 = .wrFrame2 0x0000BFFC#32 ∧ decode 0x00900000000#41 = .rd 0x09#8

/-- A command word with `op` 0x08 to 0xFF or with a bit of `zero` set is reserved: writing it sets
ERR_CMD and RESULT to 15 and changes nothing else (30_encoding.md R83). -/
def Obligations.ReservedCommandWordsRaiseErrCmd : Prop :=
  ∀ data : Word, (field data 7 0 ≥ 8 ∨ field data 31 8 ≠ 0) →
    decode (txnWord true 0x01#8 data) = .cmdReserved data ∧
    ∀ s : State, exec (.cmdReserved data) s = .next { s with errCmd := true, result := 15#4 }

/-- A write to a read-only register or to an unmapped index sets ERR_BUS and changes nothing else,
RESULT included (20_memory.md R66). -/
def Obligations.IllegalWritesRaiseErrBus : Prop :=
  ∀ (idx : Index) (data : Word),
    (idx.toNat ∈ [0x00, 0x02, 0x03, 0x09, 0x0A, 0x0B, 0x0C, 0x0D, 0x0E, 0x0F, 0x10, 0x11, 0x15, 0x16,
        0x17, 0x18, 0x19, 0x1A] ∨ 0x1B ≤ idx.toNat) →
    decode (txnWord true idx data) = .wrIllegal idx data ∧
    ∀ s : State, exec (.wrIllegal idx data) s = .next { s with errBus := true }

/-! ## The step -/

/-- A step with a transaction pending takes it from the host's inputs, decodes it and is `exec` of
what it decodes to; nothing else is added around `exec` (00_scope.md R9; the list of inputs is the
model's, log entry 1). -/
def Obligations.StepRunsTheDecodedTransaction : Prop :=
  ∀ (s : State) (t : TxnWord) (rest : List HostInput) (i : Instr),
    s.hostIn = .txn t :: rest → decode t = i → i.wellFormed = true →
    step s = exec i { s with hostIn := rest }

/-- The reset input gives every state element its reset value, whatever the state was
(70_reset_and_hazards.md R220, 10_state.md R54). -/
def Obligations.ResetInputGivesResetValues : Prop :=
  ∀ (s : State) (rest : List HostInput), s.hostIn = .reset :: rest →
    step s = .next
      { hostIn := rest, hostOut := s.hostOut, sb := [], el := [], elValid := false, edgeCount := 0#16,
        bl := [], blValid := false, pulseCount := 0#16, pulseSum := 0#17, shortCount := 0#16,
        longCount := 0#16, shortPct := 0#7, longPct := 0#7, ltcLike := false, acc := [],
        deferCnt := 0#4, frame := 0#80, frameValid := false, evq := [], result := 0#4,
        winFlags := 0#32, winFrames := 0#32, winEvents := 0#32, winInvalid := 0#32, sbOvf := false,
        accOvf := false, evOvf := false, errSeq := false, errCmd := false, errBus := false,
        cfg0 := 0x002A6000#32, cfg1 := 0x000003E8#32, cfg2 := 0x00005A0A#32,
        sampleRate := 0x0000BB80#32 }

/-- With no input from the host the block is idle and all state survives (60_exceptions.md R213). -/
def Obligations.IdleKeepsAllState : Prop := ∀ s : State, s.hostIn = [] → step s = .next s

/-- Transactions take effect one at a time and in order: a step removes exactly the first input
(20_memory.md R70). -/
def Obligations.StepConsumesExactlyOneInput : Prop :=
  ∀ (s t : State) (i : HostInput) (rest : List HostInput),
    s.hostIn = i :: rest → step s = .next t → t.hostIn = rest

/-! ## Reads -/

/-- After reset every index reads what the register table says (10_state.md R30, reset column;
95_test_vectors.md P0). -/
def Obligations.ResetReadbackOfEveryIndex : Prop :=
  ∀ idx : Index, ReadsAs State.reset idx
    (if idx = 0x00#8 then 0x4C544331#32 else if idx = 0x04#8 then 0x002A6000#32
      else if idx = 0x05#8 then 0x000003E8#32 else if idx = 0x06#8 then 0x00005A0A#32
      else if idx = 0x07#8 then 0x0000BB80#32 else 0#32)

/-- A read of any index completes and changes no state, and the value depends on nothing but the
state: reading another index in between does not change it (20_memory.md R64). -/
def Obligations.ReadsHaveNoSideEffect : Prop :=
  ∀ (s : State) (idx other : Index), ∃ v w : Word,
    exec (.rd idx) s = .next { s with hostOut := s.hostOut ++ [v] } ∧
    exec (.rd other) { s with hostOut := s.hostOut ++ [v] }
      = .next { s with hostOut := s.hostOut ++ [v] ++ [w] } ∧
    exec (.rd idx) { s with hostOut := s.hostOut ++ [v] ++ [w] }
      = .next { s with hostOut := s.hostOut ++ [v] ++ [w] ++ [v] }

/-- ID reads its constant; a write-only register and an unmapped index read 0 (10_state.md R31,
20_memory.md R67). -/
def Obligations.ConstantAndEmptyReads : Prop :=
  ∀ s : State, ReadsAs s 0x00#8 0x4C544331#32 ∧ ReadsAs s 0x01#8 0#32 ∧ ReadsAs s 0x08#8 0#32 ∧
    ∀ idx : Index, 0x1B ≤ idx.toNat → ReadsAs s idx 0#32

/-- STATUS assembles the valid flags, LTC_LIKE and the sticky flags, each at its bit, all other bits
0 (10_state.md R33). -/
def Obligations.StatusReadsItsBits : Prop :=
  ∀ s : State, ∃ v : Word, ReadsAs s 0x02#8 v ∧
    v.getLsbD 0 = s.elValid ∧ v.getLsbD 1 = s.blValid ∧ v.getLsbD 2 = s.frameValid ∧
    (v.getLsbD 3 = true ↔ 0 < s.evq.length) ∧ v.getLsbD 4 = s.ltcLike ∧ v.getLsbD 5 = false ∧
    v.getLsbD 6 = false ∧ v.getLsbD 7 = false ∧ v.getLsbD 8 = s.sbOvf ∧ v.getLsbD 9 = s.accOvf ∧
    v.getLsbD 10 = s.evOvf ∧ v.getLsbD 11 = s.errSeq ∧ v.getLsbD 12 = s.errCmd ∧
    v.getLsbD 13 = s.errBus ∧ ∀ n, 14 ≤ n → v.getLsbD n = false

/-- The fill counts read the lengths of the buffers they count: WPTR, EDGE_COUNT, ACC_LEN and
EVENT_COUNT (10_state.md R40, R41, R46, R50). -/
def Obligations.CountsReadTheBufferLengths : Prop :=
  ∀ s : State, Invariant s →
    ReadsAs s 0x09#8 (BitVec.ofNat 32 s.sb.length) ∧ ReadsAs s 0x0A#8 (BitVec.ofNat 32 s.el.length) ∧
    ReadsAs s 0x10#8 (BitVec.ofNat 32 s.acc.length) ∧
    ReadsAs s 0x16#8 (BitVec.ofNat 32 s.evq.length)

/-- RESULT, DEFER_CNT and the window statistics read their fields zero-extended, PCT with SHORT_PCT
in bits 6:0 and LONG_PCT in bits 14:8 (10_state.md R34, R42 to R45, R47). -/
def Obligations.StatisticsReadTheirFields : Prop :=
  ∀ s : State,
    ReadsAs s 0x03#8 (BitVec.ofNat 32 s.result.toNat) ∧
    ReadsAs s 0x0B#8 (BitVec.ofNat 32 s.pulseCount.toNat) ∧
    ReadsAs s 0x0C#8 (BitVec.ofNat 32 s.pulseSum.toNat) ∧
    ReadsAs s 0x0D#8 (BitVec.ofNat 32 s.shortCount.toNat) ∧
    ReadsAs s 0x0E#8 (BitVec.ofNat 32 s.longCount.toNat) ∧
    ReadsAs s 0x0F#8 (BitVec.ofNat 32 (s.shortPct.toNat + 256 * s.longPct.toNat)) ∧
    ReadsAs s 0x11#8 (BitVec.ofNat 32 s.deferCnt.toNat)

/-- FRAME0, FRAME1 and FRAME2 read the bits of FRAME whatever FRAME_VALID is, bits 31:16 of FRAME2
as 0 (10_state.md R48, 30_encoding.md R91). -/
def Obligations.FrameRegistersReadTheFrameBits : Prop :=
  ∀ s : State, ∃ v0 v1 v2 : Word,
    ReadsAs s 0x12#8 v0 ∧ ReadsAs s 0x13#8 v1 ∧ ReadsAs s 0x14#8 v2 ∧
    (∀ j < 32, v0.getLsbD j = s.frame.getLsbD j) ∧
    (∀ j < 32, v1.getLsbD j = s.frame.getLsbD (32 + j)) ∧
    (∀ j < 16, v2.getLsbD j = s.frame.getLsbD (64 + j)) ∧
    ∀ j, 16 ≤ j → v2.getLsbD j = false

/-- EVENT_HEAD reads the oldest event, or 0 when there is none, so its bit 31 says whether an event
was there; WIN_FLAGS and the window counters read as they stand (10_state.md R49, R51, R52). -/
def Obligations.EventAndCycleReads : Prop :=
  ∀ s : State, Invariant s → ∃ v : Word, ReadsAs s 0x15#8 v ∧
    (∀ e rest, s.evq = e :: rest → v = e) ∧ (s.evq = [] → v = 0#32) ∧
    (v.getLsbD 31 = true ↔ s.evq ≠ []) ∧
    ReadsAs s 0x17#8 s.winFlags ∧ ReadsAs s 0x18#8 s.winFrames ∧ ReadsAs s 0x19#8 s.winEvents ∧
    ReadsAs s 0x1A#8 s.winInvalid

/-! ## Writes -/

/-- WR_CFG0 stores the writable bits, changes nothing else, and the register then reads them and its
fields are those of the data (44_host_commands.md R183). -/
def Obligations.WriteCfg0StoresFields : Prop :=
  ∀ (data : Word) (s : State), ∃ v : Word,
    exec (.wrCfg0 data) s = .next { s with cfg0 := v } ∧ ReadsAs { s with cfg0 := v } 0x04#8 v ∧
    v = data &&& 0x00FFFF07#32 ∧ field v 0 0 = field data 0 0 ∧ field v 2 1 = field data 2 1 ∧
    field v 7 3 = 0 ∧ field v 15 8 = field data 15 8 ∧ field v 19 16 = field data 19 16 ∧
    field v 23 20 = field data 23 20 ∧ field v 31 24 = 0

/-- WR_CFG1, WR_CFG2 and WR_SAMPLE_RATE store their writable bits, change nothing else, and the
register then reads them (44_host_commands.md R184, R185, R186). -/
def Obligations.ConfigurationWritesStoreFields : Prop :=
  ∀ (data : Word) (s : State),
    (∃ v : Word, exec (.wrCfg1 data) s = .next { s with cfg1 := v } ∧
      ReadsAs { s with cfg1 := v } 0x05#8 v ∧ v = data &&& 0x0000FFFF#32 ∧
      v.toNat = field data 15 0) ∧
    (∃ v : Word, exec (.wrCfg2 data) s = .next { s with cfg2 := v } ∧
      ReadsAs { s with cfg2 := v } 0x06#8 v ∧ v = data &&& 0x00007F7F#32 ∧
      v.toNat = field data 6 0 + 256 * field data 14 8) ∧
    (∃ v : Word, exec (.wrSampleRate data) s = .next { s with sampleRate := v } ∧
      ReadsAs { s with sampleRate := v } 0x07#8 v ∧ v = data &&& 0x00FFFFFF#32 ∧
      v.toNat = field data 23 0)

/-- PUSH appends the sign-extended low half of the data to SB, or, with SB full, drops it and sets
SB_OVF; nothing else changes (44_host_commands.md R182, 30_encoding.md R84). -/
def Obligations.PushAppendsSignedSample : Prop :=
  ∀ (data : Word) (s : State),
    (s.sb.length < 65536 → ∃ x : Sample, x.toInt = sext16 data ∧
      exec (.push data) s = .next { s with sb := s.sb ++ [x] }) ∧
    (65536 ≤ s.sb.length → exec (.push data) s = .next { s with sbOvf := true })

/-- WR_FRAME0 and WR_FRAME1 replace 32 bits of FRAME and nothing else: FRAME_VALID is not changed
(44_host_commands.md R187). -/
def Obligations.WriteFrameLowWordsReplaceTheirBits : Prop :=
  ∀ (data : Word) (s : State),
    (∃ f : BitVec 80, exec (.wrFrame0 data) s = .next { s with frame := f } ∧
      ∀ j < 80, f.getLsbD j = if j < 32 then data.getLsbD j else s.frame.getLsbD j) ∧
    (∃ f : BitVec 80, exec (.wrFrame1 data) s = .next { s with frame := f } ∧
      ∀ j < 80, f.getLsbD j
        = if 32 ≤ j ∧ j < 64 then data.getLsbD (j - 32) else s.frame.getLsbD j)

/-- WR_FRAME2 replaces `F[64..80)` by `data[15:0]` and sets FRAME_VALID; nothing else changes
(44_host_commands.md R188). -/
def Obligations.WriteFrame2SetsFrameValid : Prop :=
  ∀ (data : Word) (s : State), ∃ f : BitVec 80,
    exec (.wrFrame2 data) s = .next { s with frame := f, frameValid := true } ∧
    ∀ j < 80, f.getLsbD j = if 64 ≤ j then data.getLsbD (j - 64) else s.frame.getLsbD j

/-! ## Edge Detector -/

/-- EDGE on a window with at least two rising edges: EL is exactly the rising edges in ascending
order, the window is consumed, the cycle record is cleared and holds EDGES_OK only, and nothing else
changes (40_edge_detector.md R110, R111). -/
def Obligations.EdgeRecordsTheRisingEdges : Prop :=
  ∀ s : State, 2 ≤ (risingEdges s.sb).length →
    exec .edge s = .next
      { s with
        el := risingEdges s.sb, edgeCount := BitVec.ofNat 16 (risingEdges s.sb).length, sb := []
        elValid := true, result := 1#4, winFlags := 0x00000002#32
        winFrames := 0#32, winEvents := 0#32, winInvalid := 0#32 }

/-- EDGE on a window with fewer than two rising edges records NO_SIGNAL, leaves EL_VALID 0 and
empties the accumulator; FRAME and EVQ are kept (40_edge_detector.md R113). -/
def Obligations.EdgeWithoutSignalEmptiesAccumulator : Prop :=
  ∀ s : State, (risingEdges s.sb).length < 2 →
    exec .edge s = .next
      { s with
        el := risingEdges s.sb, edgeCount := BitVec.ofNat 16 (risingEdges s.sb).length, sb := []
        elValid := false, acc := [], deferCnt := 0#4, result := 8#4, winFlags := 0x00000100#32
        winFrames := 0#32, winEvents := 0#32, winInvalid := 0#32 }

/-- The edge list EDGE leaves has edges at least 2 apart, at most half as many as samples, each the
index of a sample that is not the last of the window (40_edge_detector.md R112). -/
def Obligations.EdgeListIsSparse : Prop :=
  ∀ s t : State, exec .edge s = .next t →
    t.el.Pairwise (fun a b => a + 2 ≤ b) ∧ 2 * t.el.length ≤ s.sb.length ∧
    ∀ i ∈ t.el, i + 2 ≤ s.sb.length

/-! ## Pulse Classifier -/

/-- CLASS without a valid edge list raises ERR_SEQ and changes nothing else
(60_exceptions.md R202; 41_pulse_classifier.md R120 step 1). -/
def Obligations.ClassWithoutEdgesRaisesErrSeq : Prop :=
  ∀ s : State, s.elValid = false →
    exec .classify s = .next { s with errSeq := true, result := 14#4 }

/-- A window with fewer pulses than MIN_PULSES is rejected: PULSE_COUNT and PULSE_SUM show it, no
bits are produced, the label statistics are 0 and the accumulator is emptied; FRAME and EVQ are kept
(41_pulse_classifier.md R122). -/
def Obligations.TooFewPulsesRejectTheWindow : Prop :=
  ∀ s : State, s.elValid = true → 2 ≤ s.el.length → s.el.length - 1 < field s.cfg1 15 0 →
    exec .classify s = .next
      { s with
        elValid := false, pulseCount := BitVec.ofNat 16 (s.el.length - 1)
        pulseSum := BitVec.ofInt 17 ((s.el.getLastD 0 : Int) - (s.el.headD 0 : Int))
        blValid := false, shortCount := 0#16, longCount := 0#16, shortPct := 0#7, longPct := 0#7
        ltcLike := false, acc := [], deferCnt := 0#4, result := 9#4
        winFlags := s.winFlags ||| 0x00000200#32 }

/-- The adaptive-threshold strategy: with `srt` the durations in ascending order, pulse `k` gives the
bit 1 exactly when `128 * d[k] <= med2 * K`; the statistics follow, and nothing else changes
(41_pulse_classifier.md R124, R125). -/
def Obligations.AdaptiveThresholdLabelsPulses : Prop :=
  ∀ (s : State) (srt : List Int), s.elValid = true → 2 ≤ s.el.length →
    field s.cfg1 15 0 ≤ s.el.length - 1 → field s.cfg0 0 0 = 0 →
    srt.Perm (gaps s.el) → srt.Pairwise (· ≤ ·) →
    exec .classify s = .next (classified
      ((gaps s.el).map (fun x => decide (128 * x ≤ twiceMedian srt * (field s.cfg0 15 8 : Int)))) s)

/-- The two-cluster strategy over exact rational means: with `t` the last iteration run, pulse `k`
gives the bit 1 exactly when iteration `t` put it in cluster A, which is always the SHORT cluster;
the statistics follow, and nothing else changes (41_pulse_classifier.md R126, R127). -/
def Obligations.TwoClusterLabelsPulses : Prop :=
  ∀ (s : State) (t : Nat), s.elValid = true → 2 ≤ s.el.length →
    field s.cfg1 15 0 ≤ s.el.length - 1 → field s.cfg0 0 0 = 1 →
    LastIteration (field s.cfg0 19 16) (gaps s.el) t →
    exec .classify s = .next (classified (assignmentAt (gaps s.el) t) s)

/-- When all durations are equal the two-cluster strategy labels every pulse SHORT
(41_pulse_classifier.md R127). -/
def Obligations.EqualDurationsAreAllShort : Prop :=
  ∀ (s : State) (x : Int), s.elValid = true → 2 ≤ s.el.length →
    field s.cfg1 15 0 ≤ s.el.length - 1 → field s.cfg0 0 0 = 1 → (∀ y ∈ gaps s.el, y = x) →
    exec .classify s = .next (classified (List.replicate (s.el.length - 1) true) s)

/-- After a trusted window BL has PULSE_COUNT bits, SHORT_COUNT of them 1, SHORT_COUNT and
LONG_COUNT add up to PULSE_COUNT, PULSE_SUM is the sum of the durations, and every duration is at
least 2 (41_pulse_classifier.md R128, R129, R131; 10_state.md R44). -/
def Obligations.TrustedWindowStatistics : Prop :=
  ∀ s t : State, Invariant s → exec .classify s = .next t → t.result = 2#4 →
    t.bl.length = t.pulseCount.toNat ∧ t.shortCount.toNat = t.bl.count true ∧
    t.shortCount.toNat + t.longCount.toNat = t.pulseCount.toNat ∧
    (t.pulseSum.toNat : Int) = (gaps s.el).sum ∧ t.pulseSum.toNat ≤ 65534 ∧
    ∀ x ∈ gaps s.el, 2 ≤ x

/-! ## Frame Synchronizer -/

/-- SYNC with a sync word first at `p` and at least 80 bits after it: those 80 bits become FRAME, the
bits through the sync word leave ACC, and nothing else changes (42_frame_synchronizer.md R143, R141
for the append). -/
def Obligations.SyncExtractsTheFrame : Prop :=
  ∀ (s : State) (p : Nat), FirstSyncAt (afterAppend s) p → p + 96 ≤ (afterAppend s).length →
    ∃ f : BitVec 80, (∀ j < 80, (afterAppend s)[p + 16 + j]? = some (f.getLsbD j)) ∧
      exec .sync s = .next
        { appended s with
          frame := f, frameValid := true, acc := (afterAppend s).drop (p + 16), deferCnt := 0#4
          winFrames := s.winFrames + 1#32, result := 3#4
          winFlags := s.winFlags ||| 0x00000008#32 }

/-- SYNC with the first sync word at `p`, fewer than 80 bits after it and DEFER_CNT below DEFER_MAX
keeps ACC from the sync word on, adds 1 to DEFER_CNT without wrapping and records DEFERRED
(42_frame_synchronizer.md R144). -/
def Obligations.SyncDefersAnIncompleteMatch : Prop :=
  ∀ (s : State) (p : Nat), FirstSyncAt (afterAppend s) p → (afterAppend s).length < p + 96 →
    s.deferCnt.toNat < field s.cfg0 23 20 →
    ∃ n : BitVec 4, n.toNat = s.deferCnt.toNat + 1 ∧
      exec .sync s = .next
        { appended s with
          acc := (afterAppend s).drop p, deferCnt := n, result := 5#4
          winFlags := s.winFlags ||| 0x00000020#32 } ∧
      16 ≤ ((afterAppend s).drop p).length ∧ ((afterAppend s).drop p).length ≤ 95

/-- SYNC with an incomplete match and DEFER_CNT at or above DEFER_MAX gives the match up: only the
bits after the sync word stay, and the outcome is NO_SYNC_FOUND (42_frame_synchronizer.md R145). -/
def Obligations.SyncGivesUpAtTheRetryBound : Prop :=
  ∀ (s : State) (p : Nat), FirstSyncAt (afterAppend s) p → (afterAppend s).length < p + 96 →
    field s.cfg0 23 20 ≤ s.deferCnt.toNat →
    exec .sync s = .next
      { appended s with
        acc := (afterAppend s).drop (p + 16), deferCnt := 0#4, result := 10#4
        winFlags := s.winFlags ||| 0x00000400#32 } ∧
    ((afterAppend s).drop (p + 16)).length < 80

/-- SYNC with no sync word anywhere keeps only the last 15 bits of ACC, or all of it if it has 15 or
fewer, and records NO_SYNC_FOUND (42_frame_synchronizer.md R146). -/
def Obligations.SyncKeepsFifteenBitsWithoutMatch : Prop :=
  ∀ s : State, (∀ p, ¬ SyncAt (afterAppend s) p) →
    exec .sync s = .next
      { appended s with
        acc := (afterAppend s).drop ((afterAppend s).length - 15), deferCnt := 0#4, result := 10#4
        winFlags := s.winFlags ||| 0x00000400#32 }

/-- No proper suffix of the sync word equals a prefix of it; so two matches are at least 16 bits
apart, and what SYNC drops through the end of a match never removes part of another
(42_frame_synchronizer.md R147). -/
def Obligations.SyncWordsNeverOverlap : Prop :=
  (∀ k, 0 < k → k < 16 → Config.syncWord.drop (16 - k) ≠ Config.syncWord.take k) ∧
  ∀ (a : Bits) (p q : Nat), SyncAt a p → SyncAt a q → p < q →
    p + 16 ≤ q ∧ SyncAt (a.drop (p + 16)) (q - (p + 16))

/-- A SYNC that does not answer FRAME leaves at most 95 bits in ACC (42_frame_synchronizer.md R148,
its bounds taken together). -/
def Obligations.SyncBoundsTheAccumulator : Prop :=
  ∀ s t : State, exec .sync s = .next t → t.result ≠ 3#4 →
    t.acc.length ≤ 95 ∧ (t.result = 10#4 → t.acc.length ≤ 79) ∧
    (t.result = 5#4 → 16 ≤ t.acc.length)

/-! ## Timecode Decoder -/

/-- DECODE without a candidate raises ERR_SEQ and changes nothing else (60_exceptions.md R202;
43_timecode_decoder.md R160 step 1). -/
def Obligations.DecodeWithoutFrameRaisesErrSeq : Prop :=
  ∀ s : State, s.frameValid = false →
    exec .decode s = .next { s with errSeq := true, result := 14#4 }

/-- A candidate that passes the digit check and the range check yields its event word at the end of
EVQ; a full EVQ loses its oldest event and sets EV_OVF; nothing else changes
(43_timecode_decoder.md R165). -/
def Obligations.DecodeAppendsTheEvent : Prop :=
  ∀ s : State, s.frameValid = true → ValidFrame (field s.cfg0 2 1) s.frame →
    s.evq.length ≤ 64 →
    exec .decode s = .next
      { s with
        frameValid := false
        evq := (if s.evq.length = 64 then s.evq.drop 1 else s.evq)
          ++ [BitVec.ofNat 32 (eventNumber (field s.cfg0 2 1) s.frame)]
        evOvf := s.evOvf || decide (s.evq.length = 64)
        winEvents := s.winEvents + 1#32, result := 4#4
        winFlags := s.winFlags ||| 0x00000010#32 }

/-- A candidate that fails a check yields no event: INVALID_FRAME is recorded, WIN_INVALID grows by
1, FRAME, ACC, DEFER_CNT and EVQ are not touched (43_timecode_decoder.md R166). -/
def Obligations.DecodeRejectsAnInvalidFrame : Prop :=
  ∀ s : State, s.frameValid = true → ¬ ValidFrame (field s.cfg0 2 1) s.frame →
    exec .decode s = .next
      { s with
        frameValid := false, winInvalid := s.winInvalid + 1#32, result := 11#4
        winFlags := s.winFlags ||| 0x00000800#32 }

/-- Round trip: a Frame whose eight nibbles are the digits of h, m, s, f, whatever its other bits,
decodes to an event with exactly those fields and the declared rate code
(43_timecode_decoder.md R168, 30_encoding.md R92). -/
def Obligations.TimecodeRoundTrip : Prop :=
  ∀ (st : State) (h m s f : Nat), st.frameValid = true →
    h ≤ 23 → m ≤ 59 → s ≤ 59 → f ≤ fmaxOf (field st.cfg0 2 1) →
    nibbleAt st.frame 0 = f % 10 → nibbleAt st.frame 8 = f / 10 →
    nibbleAt st.frame 16 = s % 10 → nibbleAt st.frame 24 = s / 10 →
    nibbleAt st.frame 32 = m % 10 → nibbleAt st.frame 40 = m / 10 →
    nibbleAt st.frame 48 = h % 10 → nibbleAt st.frame 56 = h / 10 →
    ∃ (t : State) (e : Word), exec .decode st = .next t ∧ t.result = 4#4 ∧
      t.evq.getLast? = some e ∧ field e 4 0 = f ∧ field e 10 5 = s ∧ field e 16 11 = m ∧
      field e 21 17 = h ∧ field e 23 22 = field st.cfg0 2 1 ∧ field e 30 24 = 0 ∧ field e 31 31 = 1

/-- The bits of a Frame that no rule reads never affect any outcome: two frames that agree on the
eight nibbles decode alike (30_encoding.md R90). -/
def Obligations.UnreadFrameBitsChangeNothing : Prop :=
  ∀ (s t : State) (g : BitVec 80),
    (∀ o ∈ [0, 8, 16, 24, 32, 40, 48, 56], ∀ j < 4, g.getLsbD (o + j) = s.frame.getLsbD (o + j)) →
    exec .decode s = .next t →
    exec .decode { s with frame := g } = .next { t with frame := g }

/-! ## Control commands -/

/-- NOP, the write of command word 0, changes nothing (44_host_commands.md R189). -/
def Obligations.NopChangesNothing : Prop :=
  decode 0x10100000000#41 = .nop ∧ ∀ s : State, exec .nop s = .next s

/-- CLEAR gives every state element its reset value but the four configuration registers
(70_reset_and_hazards.md R221, 44_host_commands.md R190). -/
def Obligations.ClearKeepsOnlyTheConfiguration : Prop :=
  decode 0x10100000001#41 = .clear ∧ ∀ s : State, exec .clear s = .next
    { hostIn := s.hostIn, hostOut := s.hostOut, sb := [], el := [], elValid := false,
      edgeCount := 0#16, bl := [], blValid := false, pulseCount := 0#16, pulseSum := 0#17,
      shortCount := 0#16, longCount := 0#16, shortPct := 0#7, longPct := 0#7, ltcLike := false,
      acc := [], deferCnt := 0#4, frame := 0#80, frameValid := false, evq := [], result := 0#4,
      winFlags := 0#32, winFrames := 0#32, winEvents := 0#32, winInvalid := 0#32, sbOvf := false,
      accOvf := false, evOvf := false, errSeq := false, errCmd := false, errBus := false,
      cfg0 := s.cfg0, cfg1 := s.cfg1, cfg2 := s.cfg2, sampleRate := s.sampleRate }

/-- POP removes the oldest event and leaves RESULT; on an empty queue it raises ERR_SEQ; nothing
else changes (44_host_commands.md R192). -/
def Obligations.PopRemovesTheOldestEvent : Prop :=
  decode 0x10100000007#41 = .pop ∧
  (∀ (s : State) (e : Word) (rest : List Word), s.evq = e :: rest →
    exec .pop s = .next { s with evq := rest }) ∧
  (∀ s : State, s.evq = [] → exec .pop s = .next { s with errSeq := true, result := 14#4 })

/-- RUN completes in every state; RESULT is then 5, 8, 9 or 10; the window is consumed; the
configuration, the protocol-error flags and SB_OVF are not touched (44_host_commands.md R191). -/
def Obligations.RunCompletesWithAFinalOutcome : Prop :=
  ∀ s : State, ∃ t : State, exec .run s = .next t ∧ t.result ∈ [5#4, 8#4, 9#4, 10#4] ∧
    t.sb = [] ∧ t.elValid = false ∧ t.hostIn = s.hostIn ∧ t.hostOut = s.hostOut ∧ t.cfg0 = s.cfg0 ∧
    t.cfg1 = s.cfg1 ∧ t.cfg2 = s.cfg2 ∧ t.sampleRate = s.sampleRate ∧ t.sbOvf = s.sbOvf ∧
    t.errSeq = s.errSeq ∧ t.errCmd = s.errCmd ∧ t.errBus = s.errBus

/-- RUN has exactly the effect of the stage commands issued one after another with no other
transaction between them (44_host_commands.md R194). -/
def Obligations.RunEqualsTheStageCommands : Prop :=
  ∀ s t : State, exec .run s = .next t ↔ StagedCycle s t

/-- RUN terminates within the bound: at most 4096 frames in a cycle, each of them either an event or
an invalid frame (44_host_commands.md R193). -/
def Obligations.RunDecodesEveryFrameItExtracts : Prop :=
  ∀ s t : State, exec .run s = .next t →
    t.winFrames.toNat ≤ 4096 ∧ t.winEvents.toNat + t.winInvalid.toNat = t.winFrames.toNat

/-- A host that uses only RUN never overflows ACC: from at most 95 bits RUN leaves at most 95 and
does not set ACC_OVF (42_frame_synchronizer.md R148). -/
def Obligations.RunNeverOverflowsTheAccumulator : Prop :=
  ∀ s t : State, Invariant s → s.acc.length ≤ 95 → exec .run s = .next t →
    t.acc.length ≤ 95 ∧ t.accOvf = s.accOvf

/-! ## The whole machine -/

/-- A sticky flag, once 1, stays 1 through every transaction but CLEAR (10_state.md R33). -/
def Obligations.StickyFlagsSurviveAllButClear : Prop :=
  ∀ (i : Instr) (s t : State), i ≠ .clear → exec i s = .next t →
    (s.sbOvf = true → t.sbOvf = true) ∧ (s.accOvf = true → t.accOvf = true) ∧
    (s.evOvf = true → t.evOvf = true) ∧ (s.errSeq = true → t.errSeq = true) ∧
    (s.errCmd = true → t.errCmd = true) ∧ (s.errBus = true → t.errBus = true)

/-- A protocol error or an overflow flag rises only from its cause: ERR_SEQ from CLASS, DECODE or POP
without input, ERR_CMD from a reserved command word, ERR_BUS from an illegal write, SB_OVF from PUSH
into a full SB, ACC_OVF from an append beyond the capacity, EV_OVF from an event into a full EVQ
(60_exceptions.md R202, R203; within RUN the last two may rise from its SYNC and DECODE). -/
def Obligations.FlagsRiseOnlyFromTheirCauses : Prop :=
  ∀ (i : Instr) (s t : State), exec i s = .next t →
    (t.errSeq = true → s.errSeq = true ∨ (i = .classify ∧ s.elValid = false) ∨
      (i = .decode ∧ s.frameValid = false) ∨ (i = .pop ∧ s.evq = [])) ∧
    (t.errCmd = true → s.errCmd = true ∨ ∃ d, i = .cmdReserved d) ∧
    (t.errBus = true → s.errBus = true ∨ ∃ idx d, i = .wrIllegal idx d) ∧
    (t.sbOvf = true → s.sbOvf = true ∨ ∃ d, i = .push d ∧ 65536 ≤ s.sb.length) ∧
    (t.accOvf = true → s.accOvf = true ∨ i = .run ∨
      (i = .sync ∧ s.blValid = true ∧ 65536 < s.acc.length + s.bl.length)) ∧
    (t.evOvf = true → s.evOvf = true ∨ i = .run ∨
      (i = .decode ∧ s.frameValid = true ∧ s.evq.length = 64))

/-- No transaction other than a write to CMD changes RESULT or WIN_FLAGS
(44_host_commands.md R181). -/
def Obligations.OnlyCommandsChangeResult : Prop :=
  ∀ (w : TxnWord) (s t : State), ¬ (w.getLsbD 40 = true ∧ w.extractLsb' 32 8 = 0x01#8) →
    exec (decode w) s = .next t → t.result = s.result ∧ t.winFlags = s.winFlags

/-- A configuration register changes only by a write to it; no command changes it, CLEAR included
(10_state.md R54, 70_reset_and_hazards.md R221). -/
def Obligations.ConfigurationChangesOnlyByItsWrites : Prop :=
  ∀ (i : Instr) (s t : State), exec i s = .next t →
    (t.cfg0 = s.cfg0 ∨ ∃ d, i = .wrCfg0 d) ∧ (t.cfg1 = s.cfg1 ∨ ∃ d, i = .wrCfg1 d) ∧
    (t.cfg2 = s.cfg2 ∨ ∃ d, i = .wrCfg2 d) ∧
    (t.sampleRate = s.sampleRate ∨ ∃ d, i = .wrSampleRate d)

/-- No rule reads SAMPLE_RATE: but for reading or writing the register itself, every transaction does
the same whatever it holds (10_state.md R38). -/
def Obligations.SampleRateIsReadByNoRule : Prop :=
  ∀ (i : Instr) (s t : State) (r : Word), i ≠ .rd 0x07#8 → (∀ d, i ≠ .wrSampleRate d) →
    exec i s = .next t → exec i { s with sampleRate := r } = .next { t with sampleRate := r }

/-- EL is read by nothing while EL_VALID is 0, and BL by nothing while BL_VALID is 0: what they hold
then affects nothing but themselves (10_state.md R22, R23; what they hold is the model's choice, log
entry 6). -/
def Obligations.ConsumedListsAreReadByNothing : Prop :=
  (∀ (i : Instr) (s t : State) (x : List Nat), s.elValid = false → exec i s = .next t →
    ∃ u : State, exec i { s with el := x } = .next u ∧ { u with el := [] } = { t with el := [] }) ∧
  (∀ (i : Instr) (s t : State) (x : Bits), s.blValid = false → exec i s = .next t →
    ∃ u : State, exec i { s with bl := x } = .next u ∧ { u with bl := [] } = { t with bl := [] })

/-- LTC_LIKE gates nothing: SYNC, DECODE and RUN do the same whatever it is
(41_pulse_classifier.md R130). -/
def Obligations.LtcLikeGatesNothing : Prop :=
  ∀ (i : Instr) (s t : State) (b : Bool), i ∈ [Instr.edge, .classify, .sync, .decode, .run, .pop] →
    exec i s = .next t →
    ∃ u : State, exec i { s with ltcLike := b } = .next u ∧
      { u with ltcLike := false } = { t with ltcLike := false }

/-- Every step keeps the invariant (the ranges and promises of 10_state.md R21 to R27, R33, R35 to
R38, R44, R51; 42_frame_synchronizer.md R144; 30_encoding.md R92, R94). -/
def Obligations.StepKeepsTheInvariant : Prop :=
  ∀ s t : State, Invariant s → step s = .next t → Invariant t

/-- The reset state meets the invariant (10_state.md R54). -/
def Obligations.ResetMeetsTheInvariant : Prop := Invariant State.reset

/-- No sequence of host transactions and resets ever stops the block: from reset, any number of steps
over any inputs ends in a next state that meets the invariant (60_exceptions.md R207; the inputs are
the model's list, log entry 1). -/
def Obligations.NoHostProgramStopsTheBlock : Prop :=
  ∀ (inputs : List HostInput) (k : Nat), ∃ t : State,
    Sys2Proof.core.run k { State.reset with hostIn := inputs } = .next t ∧ Invariant t
end

