-- ==== Sys2Proof/Laws/Bits.lean ====
section
/-! SUPPORT. Laws/Bits.lean: what the bit-field operations of Operands.lean compute, in the numbers
the rules use (`field`, `sext16`, `nibbleAt`). -/

namespace Sys2Proof.Machine

theorem field_eq_extract (v : Word) (hi lo : Nat) :
    field v hi lo = (v.extractLsb' lo (hi + 1 - lo)).toNat := by
  simp [field, Nat.shiftRight_eq_div_pow]

theorem twoClusterSelected_eq (s : State) : twoClusterSelected s = decide (field s.cfg0 0 0 = 1) := by
  simp only [twoClusterSelected, ← BitVec.testBit_toNat, Nat.testBit_eq_decide_div_mod_eq, field]
  rfl

theorem rateCode_toNat (s : State) : (rateCode s).toNat = field s.cfg0 2 1 := by
  simp [rateCode, field_eq_extract]

theorem multiplierK_toNat (s : State) : (multiplierK s).toNat = field s.cfg0 15 8 := by
  simp [multiplierK, field_eq_extract]

theorem iterCap_toNat (s : State) : (iterCap s).toNat = field s.cfg0 19 16 := by
  simp [iterCap, field_eq_extract]

theorem deferMax_toNat (s : State) : (deferMax s).toNat = field s.cfg0 23 20 := by
  simp [deferMax, field_eq_extract]

theorem minPulses_toNat (s : State) : (minPulses s).toNat = field s.cfg1 15 0 := by
  simp [minPulses, field_eq_extract]

theorem pctLo_toNat (s : State) : (pctLo s).toNat = field s.cfg2 6 0 := by
  simp [pctLo, field_eq_extract]

theorem pctHi_toNat (s : State) : (pctHi s).toNat = field s.cfg2 14 8 := by
  simp [pctHi, field_eq_extract]

theorem sampleOf_toInt (data : Word) : (sampleOf data).toInt = sext16 data := by
  have h0 : (sampleOf data).toNat = data.toNat % 65536 := by simp [sampleOf]
  have hb : field data 15 15 = data.toNat / 32768 % 2 := rfl
  have hl : field data 15 0 = data.toNat % 65536 := by simp [field]
  simp only [BitVec.toInt, sext16, hb, hl, h0]
  by_cases h : 2 * (data.toNat % 65536) < 2 ^ 16
  · rw [if_pos h, if_pos (by omega)]
  · rw [if_neg h, if_neg (by omega)]
    rfl

/-- A nibble in bits is the nibble in numbers. -/
theorem nib_eq_nibbleAt (f : BitVec 80) (o : Nat) : nib f o = nibbleAt f o := by
  simp only [nib, nibbleAt, ← BitVec.testBit_toNat, Nat.testBit_eq_decide_div_mod_eq, pow_succ,
    ← Nat.div_div_eq_div_mul]
  generalize f.toNat / 2 ^ o = n
  rcases Nat.mod_two_eq_zero_or_one n with h0 | h0 <;>
  rcases Nat.mod_two_eq_zero_or_one (n / 2) with h1 | h1 <;>
  rcases Nat.mod_two_eq_zero_or_one (n / 2 / 2) with h2 | h2 <;>
  rcases Nat.mod_two_eq_zero_or_one (n / 2 / 2 / 2) with h3 | h3 <;>
  (simp [h0, h1, h2, h3]; try omega)

theorem bitsToNat_testBit (l : Bits) (j : Nat) : (bitsToNat l).testBit j = l[j]?.getD false := by
  induction l generalizing j with
  | nil => simp [bitsToNat]
  | cons b bs ih =>
    cases j with
    | zero => cases b <;> simp [bitsToNat, Nat.testBit_zero]
    | succ j =>
      have : (b.toNat + 2 * bitsToNat bs) / 2 = bitsToNat bs := by cases b <;> simp; omega
      simp [bitsToNat, Nat.testBit_succ, this, ih]

/-- `F[j]` of a Frame made from bits is element `j`. -/
theorem frameOfBits_getLsbD (l : Bits) {j : Nat} (hj : j < 80) :
    (frameOfBits l).getLsbD j = l[j]?.getD false := by
  rw [frameOfBits, BitVec.getLsbD_ofNat, bitsToNat_testBit]
  simp [hj]

end Sys2Proof.Machine
end

