-- ==== Sys2Proof/Laws/State.lean ====
section
/-! SUPPORT. Laws/State.lean: one lemma per field per named update of the state, so that no later
proof unfolds a record update. -/

namespace Sys2Proof.Machine

variable (s : State)

/-! ### Outcome codes -/

@[simp] theorem value_none : Code.value .none = 0#4 := rfl
@[simp] theorem winFlag_none : Code.winFlag .none = 0x00000000#32 := rfl
@[simp] theorem value_edgesOk : Code.value .edgesOk = 1#4 := rfl
@[simp] theorem winFlag_edgesOk : Code.winFlag .edgesOk = 0x00000002#32 := rfl
@[simp] theorem value_bitsOk : Code.value .bitsOk = 2#4 := rfl
@[simp] theorem winFlag_bitsOk : Code.winFlag .bitsOk = 0x00000004#32 := rfl
@[simp] theorem value_frame : Code.value .frame = 3#4 := rfl
@[simp] theorem winFlag_frame : Code.winFlag .frame = 0x00000008#32 := rfl
@[simp] theorem value_event : Code.value .event = 4#4 := rfl
@[simp] theorem winFlag_event : Code.winFlag .event = 0x00000010#32 := rfl
@[simp] theorem value_deferred : Code.value .deferred = 5#4 := rfl
@[simp] theorem winFlag_deferred : Code.winFlag .deferred = 0x00000020#32 := rfl
@[simp] theorem value_noSignal : Code.value .noSignal = 8#4 := rfl
@[simp] theorem winFlag_noSignal : Code.winFlag .noSignal = 0x00000100#32 := rfl
@[simp] theorem value_insufficientPulses : Code.value .insufficientPulses = 9#4 := rfl
@[simp] theorem winFlag_insufficientPulses : Code.winFlag .insufficientPulses = 0x00000200#32 := rfl
@[simp] theorem value_noSyncFound : Code.value .noSyncFound = 10#4 := rfl
@[simp] theorem winFlag_noSyncFound : Code.winFlag .noSyncFound = 0x00000400#32 := rfl
@[simp] theorem value_invalidFrame : Code.value .invalidFrame = 11#4 := rfl
@[simp] theorem winFlag_invalidFrame : Code.winFlag .invalidFrame = 0x00000800#32 := rfl
@[simp] theorem value_errSeq : Code.value .errSeq = 14#4 := rfl
@[simp] theorem winFlag_errSeq : Code.winFlag .errSeq = 0x00000000#32 := rfl
@[simp] theorem value_errCmd : Code.value .errCmd = 15#4 := rfl
@[simp] theorem winFlag_errCmd : Code.winFlag .errCmd = 0x00000000#32 := rfl


/-! ### `recordOutcome` -/

@[simp] theorem recordOutcome_hostIn (c : Code) : (recordOutcome c s).hostIn = s.hostIn := rfl
@[simp] theorem recordOutcome_hostOut (c : Code) :
    (recordOutcome c s).hostOut = s.hostOut := rfl
@[simp] theorem recordOutcome_sb (c : Code) : (recordOutcome c s).sb = s.sb := rfl
@[simp] theorem recordOutcome_el (c : Code) : (recordOutcome c s).el = s.el := rfl
@[simp] theorem recordOutcome_elValid (c : Code) :
    (recordOutcome c s).elValid = s.elValid := rfl
@[simp] theorem recordOutcome_edgeCount (c : Code) :
    (recordOutcome c s).edgeCount = s.edgeCount := rfl
@[simp] theorem recordOutcome_bl (c : Code) : (recordOutcome c s).bl = s.bl := rfl
@[simp] theorem recordOutcome_blValid (c : Code) :
    (recordOutcome c s).blValid = s.blValid := rfl
@[simp] theorem recordOutcome_pulseCount (c : Code) :
    (recordOutcome c s).pulseCount = s.pulseCount := rfl
@[simp] theorem recordOutcome_pulseSum (c : Code) :
    (recordOutcome c s).pulseSum = s.pulseSum := rfl
@[simp] theorem recordOutcome_shortCount (c : Code) :
    (recordOutcome c s).shortCount = s.shortCount := rfl
@[simp] theorem recordOutcome_longCount (c : Code) :
    (recordOutcome c s).longCount = s.longCount := rfl
@[simp] theorem recordOutcome_shortPct (c : Code) :
    (recordOutcome c s).shortPct = s.shortPct := rfl
@[simp] theorem recordOutcome_longPct (c : Code) :
    (recordOutcome c s).longPct = s.longPct := rfl
@[simp] theorem recordOutcome_ltcLike (c : Code) :
    (recordOutcome c s).ltcLike = s.ltcLike := rfl
@[simp] theorem recordOutcome_acc (c : Code) : (recordOutcome c s).acc = s.acc := rfl
@[simp] theorem recordOutcome_deferCnt (c : Code) :
    (recordOutcome c s).deferCnt = s.deferCnt := rfl
@[simp] theorem recordOutcome_frame (c : Code) : (recordOutcome c s).frame = s.frame := rfl
@[simp] theorem recordOutcome_frameValid (c : Code) :
    (recordOutcome c s).frameValid = s.frameValid := rfl
@[simp] theorem recordOutcome_evq (c : Code) : (recordOutcome c s).evq = s.evq := rfl
@[simp] theorem recordOutcome_result (c : Code) : (recordOutcome c s).result = c.value := rfl
@[simp] theorem recordOutcome_winFlags (c : Code) :
    (recordOutcome c s).winFlags = s.winFlags ||| c.winFlag := rfl
@[simp] theorem recordOutcome_winFrames (c : Code) :
    (recordOutcome c s).winFrames = s.winFrames := rfl
@[simp] theorem recordOutcome_winEvents (c : Code) :
    (recordOutcome c s).winEvents = s.winEvents := rfl
@[simp] theorem recordOutcome_winInvalid (c : Code) :
    (recordOutcome c s).winInvalid = s.winInvalid := rfl
@[simp] theorem recordOutcome_sbOvf (c : Code) : (recordOutcome c s).sbOvf = s.sbOvf := rfl
@[simp] theorem recordOutcome_accOvf (c : Code) : (recordOutcome c s).accOvf = s.accOvf := rfl
@[simp] theorem recordOutcome_evOvf (c : Code) : (recordOutcome c s).evOvf = s.evOvf := rfl
@[simp] theorem recordOutcome_errSeq (c : Code) : (recordOutcome c s).errSeq = s.errSeq := rfl
@[simp] theorem recordOutcome_errCmd (c : Code) : (recordOutcome c s).errCmd = s.errCmd := rfl
@[simp] theorem recordOutcome_errBus (c : Code) : (recordOutcome c s).errBus = s.errBus := rfl
@[simp] theorem recordOutcome_cfg0 (c : Code) : (recordOutcome c s).cfg0 = s.cfg0 := rfl
@[simp] theorem recordOutcome_cfg1 (c : Code) : (recordOutcome c s).cfg1 = s.cfg1 := rfl
@[simp] theorem recordOutcome_cfg2 (c : Code) : (recordOutcome c s).cfg2 = s.cfg2 := rfl
@[simp] theorem recordOutcome_sampleRate (c : Code) :
    (recordOutcome c s).sampleRate = s.sampleRate := rfl

/-! ### `raise` -/

@[simp] theorem raise_hostIn (e : ProtocolError) :
    (raise e s).hostIn = s.hostIn := by cases e <;> rfl
@[simp] theorem raise_hostOut (e : ProtocolError) :
    (raise e s).hostOut = s.hostOut := by cases e <;> rfl
@[simp] theorem raise_sb (e : ProtocolError) : (raise e s).sb = s.sb := by cases e <;> rfl
@[simp] theorem raise_el (e : ProtocolError) : (raise e s).el = s.el := by cases e <;> rfl
@[simp] theorem raise_elValid (e : ProtocolError) :
    (raise e s).elValid = s.elValid := by cases e <;> rfl
@[simp] theorem raise_edgeCount (e : ProtocolError) :
    (raise e s).edgeCount = s.edgeCount := by cases e <;> rfl
@[simp] theorem raise_bl (e : ProtocolError) : (raise e s).bl = s.bl := by cases e <;> rfl
@[simp] theorem raise_blValid (e : ProtocolError) :
    (raise e s).blValid = s.blValid := by cases e <;> rfl
@[simp] theorem raise_pulseCount (e : ProtocolError) :
    (raise e s).pulseCount = s.pulseCount := by cases e <;> rfl
@[simp] theorem raise_pulseSum (e : ProtocolError) :
    (raise e s).pulseSum = s.pulseSum := by cases e <;> rfl
@[simp] theorem raise_shortCount (e : ProtocolError) :
    (raise e s).shortCount = s.shortCount := by cases e <;> rfl
@[simp] theorem raise_longCount (e : ProtocolError) :
    (raise e s).longCount = s.longCount := by cases e <;> rfl
@[simp] theorem raise_shortPct (e : ProtocolError) :
    (raise e s).shortPct = s.shortPct := by cases e <;> rfl
@[simp] theorem raise_longPct (e : ProtocolError) :
    (raise e s).longPct = s.longPct := by cases e <;> rfl
@[simp] theorem raise_ltcLike (e : ProtocolError) :
    (raise e s).ltcLike = s.ltcLike := by cases e <;> rfl
@[simp] theorem raise_acc (e : ProtocolError) : (raise e s).acc = s.acc := by cases e <;> rfl
@[simp] theorem raise_deferCnt (e : ProtocolError) :
    (raise e s).deferCnt = s.deferCnt := by cases e <;> rfl
@[simp] theorem raise_frame (e : ProtocolError) :
    (raise e s).frame = s.frame := by cases e <;> rfl
@[simp] theorem raise_frameValid (e : ProtocolError) :
    (raise e s).frameValid = s.frameValid := by cases e <;> rfl
@[simp] theorem raise_evq (e : ProtocolError) : (raise e s).evq = s.evq := by cases e <;> rfl
@[simp] theorem raise_winFlags (e : ProtocolError) :
    (raise e s).winFlags = s.winFlags := by cases e <;> rfl
@[simp] theorem raise_winFrames (e : ProtocolError) :
    (raise e s).winFrames = s.winFrames := by cases e <;> rfl
@[simp] theorem raise_winEvents (e : ProtocolError) :
    (raise e s).winEvents = s.winEvents := by cases e <;> rfl
@[simp] theorem raise_winInvalid (e : ProtocolError) :
    (raise e s).winInvalid = s.winInvalid := by cases e <;> rfl
@[simp] theorem raise_sbOvf (e : ProtocolError) :
    (raise e s).sbOvf = s.sbOvf := by cases e <;> rfl
@[simp] theorem raise_accOvf (e : ProtocolError) :
    (raise e s).accOvf = s.accOvf := by cases e <;> rfl
@[simp] theorem raise_evOvf (e : ProtocolError) :
    (raise e s).evOvf = s.evOvf := by cases e <;> rfl
@[simp] theorem raise_cfg0 (e : ProtocolError) : (raise e s).cfg0 = s.cfg0 := by cases e <;> rfl
@[simp] theorem raise_cfg1 (e : ProtocolError) : (raise e s).cfg1 = s.cfg1 := by cases e <;> rfl
@[simp] theorem raise_cfg2 (e : ProtocolError) : (raise e s).cfg2 = s.cfg2 := by cases e <;> rfl
@[simp] theorem raise_sampleRate (e : ProtocolError) :
    (raise e s).sampleRate = s.sampleRate := by cases e <;> rfl
@[simp] theorem raise_seq_result : (raise .seq s).result = Code.errSeq.value := rfl
@[simp] theorem raise_seq_errSeq : (raise .seq s).errSeq = true := rfl
@[simp] theorem raise_seq_errCmd : (raise .seq s).errCmd = s.errCmd := rfl
@[simp] theorem raise_seq_errBus : (raise .seq s).errBus = s.errBus := rfl
@[simp] theorem raise_cmd_result : (raise .cmd s).result = Code.errCmd.value := rfl
@[simp] theorem raise_cmd_errSeq : (raise .cmd s).errSeq = s.errSeq := rfl
@[simp] theorem raise_cmd_errCmd : (raise .cmd s).errCmd = true := rfl
@[simp] theorem raise_cmd_errBus : (raise .cmd s).errBus = s.errBus := rfl
@[simp] theorem raise_bus_result : (raise .bus s).result = s.result := rfl
@[simp] theorem raise_bus_errSeq : (raise .bus s).errSeq = s.errSeq := rfl
@[simp] theorem raise_bus_errCmd : (raise .bus s).errCmd = s.errCmd := rfl
@[simp] theorem raise_bus_errBus : (raise .bus s).errBus = true := rfl

/-! ### `clearCycleRecord` -/

@[simp] theorem clearCycleRecord_hostIn : (clearCycleRecord s).hostIn = s.hostIn := rfl
@[simp] theorem clearCycleRecord_hostOut : (clearCycleRecord s).hostOut = s.hostOut := rfl
@[simp] theorem clearCycleRecord_sb : (clearCycleRecord s).sb = s.sb := rfl
@[simp] theorem clearCycleRecord_el : (clearCycleRecord s).el = s.el := rfl
@[simp] theorem clearCycleRecord_elValid : (clearCycleRecord s).elValid = s.elValid := rfl
@[simp] theorem clearCycleRecord_edgeCount : (clearCycleRecord s).edgeCount = s.edgeCount := rfl
@[simp] theorem clearCycleRecord_bl : (clearCycleRecord s).bl = s.bl := rfl
@[simp] theorem clearCycleRecord_blValid : (clearCycleRecord s).blValid = s.blValid := rfl
@[simp] theorem clearCycleRecord_pulseCount : (clearCycleRecord s).pulseCount = s.pulseCount := rfl
@[simp] theorem clearCycleRecord_pulseSum : (clearCycleRecord s).pulseSum = s.pulseSum := rfl
@[simp] theorem clearCycleRecord_shortCount : (clearCycleRecord s).shortCount = s.shortCount := rfl
@[simp] theorem clearCycleRecord_longCount : (clearCycleRecord s).longCount = s.longCount := rfl
@[simp] theorem clearCycleRecord_shortPct : (clearCycleRecord s).shortPct = s.shortPct := rfl
@[simp] theorem clearCycleRecord_longPct : (clearCycleRecord s).longPct = s.longPct := rfl
@[simp] theorem clearCycleRecord_ltcLike : (clearCycleRecord s).ltcLike = s.ltcLike := rfl
@[simp] theorem clearCycleRecord_acc : (clearCycleRecord s).acc = s.acc := rfl
@[simp] theorem clearCycleRecord_deferCnt : (clearCycleRecord s).deferCnt = s.deferCnt := rfl
@[simp] theorem clearCycleRecord_frame : (clearCycleRecord s).frame = s.frame := rfl
@[simp] theorem clearCycleRecord_frameValid : (clearCycleRecord s).frameValid = s.frameValid := rfl
@[simp] theorem clearCycleRecord_evq : (clearCycleRecord s).evq = s.evq := rfl
@[simp] theorem clearCycleRecord_result : (clearCycleRecord s).result = s.result := rfl
@[simp] theorem clearCycleRecord_winFlags : (clearCycleRecord s).winFlags = 0#32 := rfl
@[simp] theorem clearCycleRecord_winFrames : (clearCycleRecord s).winFrames = 0#32 := rfl
@[simp] theorem clearCycleRecord_winEvents : (clearCycleRecord s).winEvents = 0#32 := rfl
@[simp] theorem clearCycleRecord_winInvalid : (clearCycleRecord s).winInvalid = 0#32 := rfl
@[simp] theorem clearCycleRecord_sbOvf : (clearCycleRecord s).sbOvf = s.sbOvf := rfl
@[simp] theorem clearCycleRecord_accOvf : (clearCycleRecord s).accOvf = s.accOvf := rfl
@[simp] theorem clearCycleRecord_evOvf : (clearCycleRecord s).evOvf = s.evOvf := rfl
@[simp] theorem clearCycleRecord_errSeq : (clearCycleRecord s).errSeq = s.errSeq := rfl
@[simp] theorem clearCycleRecord_errCmd : (clearCycleRecord s).errCmd = s.errCmd := rfl
@[simp] theorem clearCycleRecord_errBus : (clearCycleRecord s).errBus = s.errBus := rfl
@[simp] theorem clearCycleRecord_cfg0 : (clearCycleRecord s).cfg0 = s.cfg0 := rfl
@[simp] theorem clearCycleRecord_cfg1 : (clearCycleRecord s).cfg1 = s.cfg1 := rfl
@[simp] theorem clearCycleRecord_cfg2 : (clearCycleRecord s).cfg2 = s.cfg2 := rfl
@[simp] theorem clearCycleRecord_sampleRate : (clearCycleRecord s).sampleRate = s.sampleRate := rfl

/-! ### `discardBits` -/

@[simp] theorem discardBits_hostIn : (discardBits s).hostIn = s.hostIn := rfl
@[simp] theorem discardBits_hostOut : (discardBits s).hostOut = s.hostOut := rfl
@[simp] theorem discardBits_sb : (discardBits s).sb = s.sb := rfl
@[simp] theorem discardBits_el : (discardBits s).el = s.el := rfl
@[simp] theorem discardBits_elValid : (discardBits s).elValid = s.elValid := rfl
@[simp] theorem discardBits_edgeCount : (discardBits s).edgeCount = s.edgeCount := rfl
@[simp] theorem discardBits_bl : (discardBits s).bl = s.bl := rfl
@[simp] theorem discardBits_blValid : (discardBits s).blValid = s.blValid := rfl
@[simp] theorem discardBits_pulseCount : (discardBits s).pulseCount = s.pulseCount := rfl
@[simp] theorem discardBits_pulseSum : (discardBits s).pulseSum = s.pulseSum := rfl
@[simp] theorem discardBits_shortCount : (discardBits s).shortCount = s.shortCount := rfl
@[simp] theorem discardBits_longCount : (discardBits s).longCount = s.longCount := rfl
@[simp] theorem discardBits_shortPct : (discardBits s).shortPct = s.shortPct := rfl
@[simp] theorem discardBits_longPct : (discardBits s).longPct = s.longPct := rfl
@[simp] theorem discardBits_ltcLike : (discardBits s).ltcLike = s.ltcLike := rfl
@[simp] theorem discardBits_acc : (discardBits s).acc = [] := rfl
@[simp] theorem discardBits_deferCnt : (discardBits s).deferCnt = 0#4 := rfl
@[simp] theorem discardBits_frame : (discardBits s).frame = s.frame := rfl
@[simp] theorem discardBits_frameValid : (discardBits s).frameValid = s.frameValid := rfl
@[simp] theorem discardBits_evq : (discardBits s).evq = s.evq := rfl
@[simp] theorem discardBits_result : (discardBits s).result = s.result := rfl
@[simp] theorem discardBits_winFlags : (discardBits s).winFlags = s.winFlags := rfl
@[simp] theorem discardBits_winFrames : (discardBits s).winFrames = s.winFrames := rfl
@[simp] theorem discardBits_winEvents : (discardBits s).winEvents = s.winEvents := rfl
@[simp] theorem discardBits_winInvalid : (discardBits s).winInvalid = s.winInvalid := rfl
@[simp] theorem discardBits_sbOvf : (discardBits s).sbOvf = s.sbOvf := rfl
@[simp] theorem discardBits_accOvf : (discardBits s).accOvf = s.accOvf := rfl
@[simp] theorem discardBits_evOvf : (discardBits s).evOvf = s.evOvf := rfl
@[simp] theorem discardBits_errSeq : (discardBits s).errSeq = s.errSeq := rfl
@[simp] theorem discardBits_errCmd : (discardBits s).errCmd = s.errCmd := rfl
@[simp] theorem discardBits_errBus : (discardBits s).errBus = s.errBus := rfl
@[simp] theorem discardBits_cfg0 : (discardBits s).cfg0 = s.cfg0 := rfl
@[simp] theorem discardBits_cfg1 : (discardBits s).cfg1 = s.cfg1 := rfl
@[simp] theorem discardBits_cfg2 : (discardBits s).cfg2 = s.cfg2 := rfl
@[simp] theorem discardBits_sampleRate : (discardBits s).sampleRate = s.sampleRate := rfl

/-! ### `answer` -/

@[simp] theorem answer_hostIn (v : Word) : (answer v s).hostIn = s.hostIn := rfl
@[simp] theorem answer_hostOut (v : Word) : (answer v s).hostOut = s.hostOut ++ [v] := rfl
@[simp] theorem answer_sb (v : Word) : (answer v s).sb = s.sb := rfl
@[simp] theorem answer_el (v : Word) : (answer v s).el = s.el := rfl
@[simp] theorem answer_elValid (v : Word) : (answer v s).elValid = s.elValid := rfl
@[simp] theorem answer_edgeCount (v : Word) : (answer v s).edgeCount = s.edgeCount := rfl
@[simp] theorem answer_bl (v : Word) : (answer v s).bl = s.bl := rfl
@[simp] theorem answer_blValid (v : Word) : (answer v s).blValid = s.blValid := rfl
@[simp] theorem answer_pulseCount (v : Word) : (answer v s).pulseCount = s.pulseCount := rfl
@[simp] theorem answer_pulseSum (v : Word) : (answer v s).pulseSum = s.pulseSum := rfl
@[simp] theorem answer_shortCount (v : Word) : (answer v s).shortCount = s.shortCount := rfl
@[simp] theorem answer_longCount (v : Word) : (answer v s).longCount = s.longCount := rfl
@[simp] theorem answer_shortPct (v : Word) : (answer v s).shortPct = s.shortPct := rfl
@[simp] theorem answer_longPct (v : Word) : (answer v s).longPct = s.longPct := rfl
@[simp] theorem answer_ltcLike (v : Word) : (answer v s).ltcLike = s.ltcLike := rfl
@[simp] theorem answer_acc (v : Word) : (answer v s).acc = s.acc := rfl
@[simp] theorem answer_deferCnt (v : Word) : (answer v s).deferCnt = s.deferCnt := rfl
@[simp] theorem answer_frame (v : Word) : (answer v s).frame = s.frame := rfl
@[simp] theorem answer_frameValid (v : Word) : (answer v s).frameValid = s.frameValid := rfl
@[simp] theorem answer_evq (v : Word) : (answer v s).evq = s.evq := rfl
@[simp] theorem answer_result (v : Word) : (answer v s).result = s.result := rfl
@[simp] theorem answer_winFlags (v : Word) : (answer v s).winFlags = s.winFlags := rfl
@[simp] theorem answer_winFrames (v : Word) : (answer v s).winFrames = s.winFrames := rfl
@[simp] theorem answer_winEvents (v : Word) : (answer v s).winEvents = s.winEvents := rfl
@[simp] theorem answer_winInvalid (v : Word) : (answer v s).winInvalid = s.winInvalid := rfl
@[simp] theorem answer_sbOvf (v : Word) : (answer v s).sbOvf = s.sbOvf := rfl
@[simp] theorem answer_accOvf (v : Word) : (answer v s).accOvf = s.accOvf := rfl
@[simp] theorem answer_evOvf (v : Word) : (answer v s).evOvf = s.evOvf := rfl
@[simp] theorem answer_errSeq (v : Word) : (answer v s).errSeq = s.errSeq := rfl
@[simp] theorem answer_errCmd (v : Word) : (answer v s).errCmd = s.errCmd := rfl
@[simp] theorem answer_errBus (v : Word) : (answer v s).errBus = s.errBus := rfl
@[simp] theorem answer_cfg0 (v : Word) : (answer v s).cfg0 = s.cfg0 := rfl
@[simp] theorem answer_cfg1 (v : Word) : (answer v s).cfg1 = s.cfg1 := rfl
@[simp] theorem answer_cfg2 (v : Word) : (answer v s).cfg2 = s.cfg2 := rfl
@[simp] theorem answer_sampleRate (v : Word) : (answer v s).sampleRate = s.sampleRate := rfl

/-! ### `takeWindow` -/

@[simp] theorem takeWindow_hostIn : (takeWindow s).hostIn = s.hostIn := rfl
@[simp] theorem takeWindow_hostOut : (takeWindow s).hostOut = s.hostOut := rfl
@[simp] theorem takeWindow_sb : (takeWindow s).sb = [] := rfl
@[simp] theorem takeWindow_el : (takeWindow s).el = edgesOf s.sb := rfl
@[simp] theorem takeWindow_elValid : (takeWindow s).elValid = s.elValid := rfl
@[simp] theorem takeWindow_edgeCount :
    (takeWindow s).edgeCount = BitVec.ofNat 16 (edgesOf s.sb).length := rfl
@[simp] theorem takeWindow_bl : (takeWindow s).bl = s.bl := rfl
@[simp] theorem takeWindow_blValid : (takeWindow s).blValid = s.blValid := rfl
@[simp] theorem takeWindow_pulseCount : (takeWindow s).pulseCount = s.pulseCount := rfl
@[simp] theorem takeWindow_pulseSum : (takeWindow s).pulseSum = s.pulseSum := rfl
@[simp] theorem takeWindow_shortCount : (takeWindow s).shortCount = s.shortCount := rfl
@[simp] theorem takeWindow_longCount : (takeWindow s).longCount = s.longCount := rfl
@[simp] theorem takeWindow_shortPct : (takeWindow s).shortPct = s.shortPct := rfl
@[simp] theorem takeWindow_longPct : (takeWindow s).longPct = s.longPct := rfl
@[simp] theorem takeWindow_ltcLike : (takeWindow s).ltcLike = s.ltcLike := rfl
@[simp] theorem takeWindow_acc : (takeWindow s).acc = s.acc := rfl
@[simp] theorem takeWindow_deferCnt : (takeWindow s).deferCnt = s.deferCnt := rfl
@[simp] theorem takeWindow_frame : (takeWindow s).frame = s.frame := rfl
@[simp] theorem takeWindow_frameValid : (takeWindow s).frameValid = s.frameValid := rfl
@[simp] theorem takeWindow_evq : (takeWindow s).evq = s.evq := rfl
@[simp] theorem takeWindow_result : (takeWindow s).result = s.result := rfl
@[simp] theorem takeWindow_winFlags : (takeWindow s).winFlags = 0#32 := rfl
@[simp] theorem takeWindow_winFrames : (takeWindow s).winFrames = 0#32 := rfl
@[simp] theorem takeWindow_winEvents : (takeWindow s).winEvents = 0#32 := rfl
@[simp] theorem takeWindow_winInvalid : (takeWindow s).winInvalid = 0#32 := rfl
@[simp] theorem takeWindow_sbOvf : (takeWindow s).sbOvf = s.sbOvf := rfl
@[simp] theorem takeWindow_accOvf : (takeWindow s).accOvf = s.accOvf := rfl
@[simp] theorem takeWindow_evOvf : (takeWindow s).evOvf = s.evOvf := rfl
@[simp] theorem takeWindow_errSeq : (takeWindow s).errSeq = s.errSeq := rfl
@[simp] theorem takeWindow_errCmd : (takeWindow s).errCmd = s.errCmd := rfl
@[simp] theorem takeWindow_errBus : (takeWindow s).errBus = s.errBus := rfl
@[simp] theorem takeWindow_cfg0 : (takeWindow s).cfg0 = s.cfg0 := rfl
@[simp] theorem takeWindow_cfg1 : (takeWindow s).cfg1 = s.cfg1 := rfl
@[simp] theorem takeWindow_cfg2 : (takeWindow s).cfg2 = s.cfg2 := rfl
@[simp] theorem takeWindow_sampleRate : (takeWindow s).sampleRate = s.sampleRate := rfl

/-! ### `takeEdges` -/

@[simp] theorem takeEdges_hostIn : (takeEdges s).hostIn = s.hostIn := rfl
@[simp] theorem takeEdges_hostOut : (takeEdges s).hostOut = s.hostOut := rfl
@[simp] theorem takeEdges_sb : (takeEdges s).sb = s.sb := rfl
@[simp] theorem takeEdges_el : (takeEdges s).el = s.el := rfl
@[simp] theorem takeEdges_elValid : (takeEdges s).elValid = false := rfl
@[simp] theorem takeEdges_edgeCount : (takeEdges s).edgeCount = s.edgeCount := rfl
@[simp] theorem takeEdges_bl : (takeEdges s).bl = s.bl := rfl
@[simp] theorem takeEdges_blValid : (takeEdges s).blValid = s.blValid := rfl
@[simp] theorem takeEdges_pulseCount :
    (takeEdges s).pulseCount = BitVec.ofNat 16 (pulsesOf s.el) := rfl
@[simp] theorem takeEdges_pulseSum : (takeEdges s).pulseSum = BitVec.ofInt 17 (spanOf s.el) := rfl
@[simp] theorem takeEdges_shortCount : (takeEdges s).shortCount = s.shortCount := rfl
@[simp] theorem takeEdges_longCount : (takeEdges s).longCount = s.longCount := rfl
@[simp] theorem takeEdges_shortPct : (takeEdges s).shortPct = s.shortPct := rfl
@[simp] theorem takeEdges_longPct : (takeEdges s).longPct = s.longPct := rfl
@[simp] theorem takeEdges_ltcLike : (takeEdges s).ltcLike = s.ltcLike := rfl
@[simp] theorem takeEdges_acc : (takeEdges s).acc = s.acc := rfl
@[simp] theorem takeEdges_deferCnt : (takeEdges s).deferCnt = s.deferCnt := rfl
@[simp] theorem takeEdges_frame : (takeEdges s).frame = s.frame := rfl
@[simp] theorem takeEdges_frameValid : (takeEdges s).frameValid = s.frameValid := rfl
@[simp] theorem takeEdges_evq : (takeEdges s).evq = s.evq := rfl
@[simp] theorem takeEdges_result : (takeEdges s).result = s.result := rfl
@[simp] theorem takeEdges_winFlags : (takeEdges s).winFlags = s.winFlags := rfl
@[simp] theorem takeEdges_winFrames : (takeEdges s).winFrames = s.winFrames := rfl
@[simp] theorem takeEdges_winEvents : (takeEdges s).winEvents = s.winEvents := rfl
@[simp] theorem takeEdges_winInvalid : (takeEdges s).winInvalid = s.winInvalid := rfl
@[simp] theorem takeEdges_sbOvf : (takeEdges s).sbOvf = s.sbOvf := rfl
@[simp] theorem takeEdges_accOvf : (takeEdges s).accOvf = s.accOvf := rfl
@[simp] theorem takeEdges_evOvf : (takeEdges s).evOvf = s.evOvf := rfl
@[simp] theorem takeEdges_errSeq : (takeEdges s).errSeq = s.errSeq := rfl
@[simp] theorem takeEdges_errCmd : (takeEdges s).errCmd = s.errCmd := rfl
@[simp] theorem takeEdges_errBus : (takeEdges s).errBus = s.errBus := rfl
@[simp] theorem takeEdges_cfg0 : (takeEdges s).cfg0 = s.cfg0 := rfl
@[simp] theorem takeEdges_cfg1 : (takeEdges s).cfg1 = s.cfg1 := rfl
@[simp] theorem takeEdges_cfg2 : (takeEdges s).cfg2 = s.cfg2 := rfl
@[simp] theorem takeEdges_sampleRate : (takeEdges s).sampleRate = s.sampleRate := rfl

/-! ### `rejectWindow` -/

@[simp] theorem rejectWindow_hostIn : (rejectWindow s).hostIn = s.hostIn := rfl
@[simp] theorem rejectWindow_hostOut : (rejectWindow s).hostOut = s.hostOut := rfl
@[simp] theorem rejectWindow_sb : (rejectWindow s).sb = s.sb := rfl
@[simp] theorem rejectWindow_el : (rejectWindow s).el = s.el := rfl
@[simp] theorem rejectWindow_elValid : (rejectWindow s).elValid = s.elValid := rfl
@[simp] theorem rejectWindow_edgeCount : (rejectWindow s).edgeCount = s.edgeCount := rfl
@[simp] theorem rejectWindow_bl : (rejectWindow s).bl = s.bl := rfl
@[simp] theorem rejectWindow_blValid : (rejectWindow s).blValid = false := rfl
@[simp] theorem rejectWindow_pulseCount : (rejectWindow s).pulseCount = s.pulseCount := rfl
@[simp] theorem rejectWindow_pulseSum : (rejectWindow s).pulseSum = s.pulseSum := rfl
@[simp] theorem rejectWindow_shortCount : (rejectWindow s).shortCount = 0#16 := rfl
@[simp] theorem rejectWindow_longCount : (rejectWindow s).longCount = 0#16 := rfl
@[simp] theorem rejectWindow_shortPct : (rejectWindow s).shortPct = 0#7 := rfl
@[simp] theorem rejectWindow_longPct : (rejectWindow s).longPct = 0#7 := rfl
@[simp] theorem rejectWindow_ltcLike : (rejectWindow s).ltcLike = false := rfl
@[simp] theorem rejectWindow_acc : (rejectWindow s).acc = [] := rfl
@[simp] theorem rejectWindow_deferCnt : (rejectWindow s).deferCnt = 0#4 := rfl
@[simp] theorem rejectWindow_frame : (rejectWindow s).frame = s.frame := rfl
@[simp] theorem rejectWindow_frameValid : (rejectWindow s).frameValid = s.frameValid := rfl
@[simp] theorem rejectWindow_evq : (rejectWindow s).evq = s.evq := rfl
@[simp] theorem rejectWindow_result : (rejectWindow s).result = 9#4 := rfl
@[simp] theorem rejectWindow_winFlags :
    (rejectWindow s).winFlags = s.winFlags ||| 0x00000200#32 := rfl
@[simp] theorem rejectWindow_winFrames : (rejectWindow s).winFrames = s.winFrames := rfl
@[simp] theorem rejectWindow_winEvents : (rejectWindow s).winEvents = s.winEvents := rfl
@[simp] theorem rejectWindow_winInvalid : (rejectWindow s).winInvalid = s.winInvalid := rfl
@[simp] theorem rejectWindow_sbOvf : (rejectWindow s).sbOvf = s.sbOvf := rfl
@[simp] theorem rejectWindow_accOvf : (rejectWindow s).accOvf = s.accOvf := rfl
@[simp] theorem rejectWindow_evOvf : (rejectWindow s).evOvf = s.evOvf := rfl
@[simp] theorem rejectWindow_errSeq : (rejectWindow s).errSeq = s.errSeq := rfl
@[simp] theorem rejectWindow_errCmd : (rejectWindow s).errCmd = s.errCmd := rfl
@[simp] theorem rejectWindow_errBus : (rejectWindow s).errBus = s.errBus := rfl
@[simp] theorem rejectWindow_cfg0 : (rejectWindow s).cfg0 = s.cfg0 := rfl
@[simp] theorem rejectWindow_cfg1 : (rejectWindow s).cfg1 = s.cfg1 := rfl
@[simp] theorem rejectWindow_cfg2 : (rejectWindow s).cfg2 = s.cfg2 := rfl
@[simp] theorem rejectWindow_sampleRate : (rejectWindow s).sampleRate = s.sampleRate := rfl

/-! ### `acceptWindow` -/

@[simp] theorem acceptWindow_hostIn (ls : List Bool) (n : Nat) :
    (acceptWindow ls n s).hostIn = s.hostIn := rfl
@[simp] theorem acceptWindow_hostOut (ls : List Bool) (n : Nat) :
    (acceptWindow ls n s).hostOut = s.hostOut := rfl
@[simp] theorem acceptWindow_sb (ls : List Bool) (n : Nat) :
    (acceptWindow ls n s).sb = s.sb := rfl
@[simp] theorem acceptWindow_el (ls : List Bool) (n : Nat) :
    (acceptWindow ls n s).el = s.el := rfl
@[simp] theorem acceptWindow_elValid (ls : List Bool) (n : Nat) :
    (acceptWindow ls n s).elValid = s.elValid := rfl
@[simp] theorem acceptWindow_edgeCount (ls : List Bool) (n : Nat) :
    (acceptWindow ls n s).edgeCount = s.edgeCount := rfl
@[simp] theorem acceptWindow_bl (ls : List Bool) (n : Nat) :
    (acceptWindow ls n s).bl = ls.map bitOfLabel := rfl
@[simp] theorem acceptWindow_blValid (ls : List Bool) (n : Nat) :
    (acceptWindow ls n s).blValid = true := rfl
@[simp] theorem acceptWindow_pulseCount (ls : List Bool) (n : Nat) :
    (acceptWindow ls n s).pulseCount = s.pulseCount := rfl
@[simp] theorem acceptWindow_pulseSum (ls : List Bool) (n : Nat) :
    (acceptWindow ls n s).pulseSum = s.pulseSum := rfl
@[simp] theorem acceptWindow_shortCount (ls : List Bool) (n : Nat) :
    (acceptWindow ls n s).shortCount = BitVec.ofNat 16 (ls.count true) := rfl
@[simp] theorem acceptWindow_longCount (ls : List Bool) (n : Nat) :
    (acceptWindow ls n s).longCount = BitVec.ofNat 16 (n - ls.count true) := rfl
@[simp] theorem acceptWindow_shortPct (ls : List Bool) (n : Nat) :
    (acceptWindow ls n s).shortPct = percent (ls.count true) n := rfl
@[simp] theorem acceptWindow_longPct (ls : List Bool) (n : Nat) :
    (acceptWindow ls n s).longPct = percent (n - ls.count true) n := rfl
@[simp] theorem acceptWindow_ltcLike (ls : List Bool) (n : Nat) :
    (acceptWindow ls n s).ltcLike = inBand (pctLo s) (pctHi s) (ls.count true) n := rfl
@[simp] theorem acceptWindow_acc (ls : List Bool) (n : Nat) :
    (acceptWindow ls n s).acc = s.acc := rfl
@[simp] theorem acceptWindow_deferCnt (ls : List Bool) (n : Nat) :
    (acceptWindow ls n s).deferCnt = s.deferCnt := rfl
@[simp] theorem acceptWindow_frame (ls : List Bool) (n : Nat) :
    (acceptWindow ls n s).frame = s.frame := rfl
@[simp] theorem acceptWindow_frameValid (ls : List Bool) (n : Nat) :
    (acceptWindow ls n s).frameValid = s.frameValid := rfl
@[simp] theorem acceptWindow_evq (ls : List Bool) (n : Nat) :
    (acceptWindow ls n s).evq = s.evq := rfl
@[simp] theorem acceptWindow_result (ls : List Bool) (n : Nat) :
    (acceptWindow ls n s).result = 2#4 := rfl
@[simp] theorem acceptWindow_winFlags (ls : List Bool) (n : Nat) :
    (acceptWindow ls n s).winFlags = s.winFlags ||| 0x00000004#32 := rfl
@[simp] theorem acceptWindow_winFrames (ls : List Bool) (n : Nat) :
    (acceptWindow ls n s).winFrames = s.winFrames := rfl
@[simp] theorem acceptWindow_winEvents (ls : List Bool) (n : Nat) :
    (acceptWindow ls n s).winEvents = s.winEvents := rfl
@[simp] theorem acceptWindow_winInvalid (ls : List Bool) (n : Nat) :
    (acceptWindow ls n s).winInvalid = s.winInvalid := rfl
@[simp] theorem acceptWindow_sbOvf (ls : List Bool) (n : Nat) :
    (acceptWindow ls n s).sbOvf = s.sbOvf := rfl
@[simp] theorem acceptWindow_accOvf (ls : List Bool) (n : Nat) :
    (acceptWindow ls n s).accOvf = s.accOvf := rfl
@[simp] theorem acceptWindow_evOvf (ls : List Bool) (n : Nat) :
    (acceptWindow ls n s).evOvf = s.evOvf := rfl
@[simp] theorem acceptWindow_errSeq (ls : List Bool) (n : Nat) :
    (acceptWindow ls n s).errSeq = s.errSeq := rfl
@[simp] theorem acceptWindow_errCmd (ls : List Bool) (n : Nat) :
    (acceptWindow ls n s).errCmd = s.errCmd := rfl
@[simp] theorem acceptWindow_errBus (ls : List Bool) (n : Nat) :
    (acceptWindow ls n s).errBus = s.errBus := rfl
@[simp] theorem acceptWindow_cfg0 (ls : List Bool) (n : Nat) :
    (acceptWindow ls n s).cfg0 = s.cfg0 := rfl
@[simp] theorem acceptWindow_cfg1 (ls : List Bool) (n : Nat) :
    (acceptWindow ls n s).cfg1 = s.cfg1 := rfl
@[simp] theorem acceptWindow_cfg2 (ls : List Bool) (n : Nat) :
    (acceptWindow ls n s).cfg2 = s.cfg2 := rfl
@[simp] theorem acceptWindow_sampleRate (ls : List Bool) (n : Nat) :
    (acceptWindow ls n s).sampleRate = s.sampleRate := rfl

/-! ### `appendWindow` -/

@[simp] theorem appendWindow_hostIn : (appendWindow s).hostIn = s.hostIn := by
  unfold appendWindow; split <;> [split; skip] <;> rfl
@[simp] theorem appendWindow_hostOut : (appendWindow s).hostOut = s.hostOut := by
  unfold appendWindow; split <;> [split; skip] <;> rfl
@[simp] theorem appendWindow_sb : (appendWindow s).sb = s.sb := by
  unfold appendWindow; split <;> [split; skip] <;> rfl
@[simp] theorem appendWindow_el : (appendWindow s).el = s.el := by
  unfold appendWindow; split <;> [split; skip] <;> rfl
@[simp] theorem appendWindow_elValid : (appendWindow s).elValid = s.elValid := by
  unfold appendWindow; split <;> [split; skip] <;> rfl
@[simp] theorem appendWindow_edgeCount : (appendWindow s).edgeCount = s.edgeCount := by
  unfold appendWindow; split <;> [split; skip] <;> rfl
@[simp] theorem appendWindow_bl : (appendWindow s).bl = s.bl := by
  unfold appendWindow; split <;> [split; skip] <;> rfl
@[simp] theorem appendWindow_pulseCount : (appendWindow s).pulseCount = s.pulseCount := by
  unfold appendWindow; split <;> [split; skip] <;> rfl
@[simp] theorem appendWindow_pulseSum : (appendWindow s).pulseSum = s.pulseSum := by
  unfold appendWindow; split <;> [split; skip] <;> rfl
@[simp] theorem appendWindow_shortCount : (appendWindow s).shortCount = s.shortCount := by
  unfold appendWindow; split <;> [split; skip] <;> rfl
@[simp] theorem appendWindow_longCount : (appendWindow s).longCount = s.longCount := by
  unfold appendWindow; split <;> [split; skip] <;> rfl
@[simp] theorem appendWindow_shortPct : (appendWindow s).shortPct = s.shortPct := by
  unfold appendWindow; split <;> [split; skip] <;> rfl
@[simp] theorem appendWindow_longPct : (appendWindow s).longPct = s.longPct := by
  unfold appendWindow; split <;> [split; skip] <;> rfl
@[simp] theorem appendWindow_ltcLike : (appendWindow s).ltcLike = s.ltcLike := by
  unfold appendWindow; split <;> [split; skip] <;> rfl
@[simp] theorem appendWindow_deferCnt : (appendWindow s).deferCnt = s.deferCnt := by
  unfold appendWindow; split <;> [split; skip] <;> rfl
@[simp] theorem appendWindow_frame : (appendWindow s).frame = s.frame := by
  unfold appendWindow; split <;> [split; skip] <;> rfl
@[simp] theorem appendWindow_frameValid : (appendWindow s).frameValid = s.frameValid := by
  unfold appendWindow; split <;> [split; skip] <;> rfl
@[simp] theorem appendWindow_evq : (appendWindow s).evq = s.evq := by
  unfold appendWindow; split <;> [split; skip] <;> rfl
@[simp] theorem appendWindow_result : (appendWindow s).result = s.result := by
  unfold appendWindow; split <;> [split; skip] <;> rfl
@[simp] theorem appendWindow_winFlags : (appendWindow s).winFlags = s.winFlags := by
  unfold appendWindow; split <;> [split; skip] <;> rfl
@[simp] theorem appendWindow_winFrames : (appendWindow s).winFrames = s.winFrames := by
  unfold appendWindow; split <;> [split; skip] <;> rfl
@[simp] theorem appendWindow_winEvents : (appendWindow s).winEvents = s.winEvents := by
  unfold appendWindow; split <;> [split; skip] <;> rfl
@[simp] theorem appendWindow_winInvalid : (appendWindow s).winInvalid = s.winInvalid := by
  unfold appendWindow; split <;> [split; skip] <;> rfl
@[simp] theorem appendWindow_sbOvf : (appendWindow s).sbOvf = s.sbOvf := by
  unfold appendWindow; split <;> [split; skip] <;> rfl
@[simp] theorem appendWindow_evOvf : (appendWindow s).evOvf = s.evOvf := by
  unfold appendWindow; split <;> [split; skip] <;> rfl
@[simp] theorem appendWindow_errSeq : (appendWindow s).errSeq = s.errSeq := by
  unfold appendWindow; split <;> [split; skip] <;> rfl
@[simp] theorem appendWindow_errCmd : (appendWindow s).errCmd = s.errCmd := by
  unfold appendWindow; split <;> [split; skip] <;> rfl
@[simp] theorem appendWindow_errBus : (appendWindow s).errBus = s.errBus := by
  unfold appendWindow; split <;> [split; skip] <;> rfl
@[simp] theorem appendWindow_cfg0 : (appendWindow s).cfg0 = s.cfg0 := by
  unfold appendWindow; split <;> [split; skip] <;> rfl
@[simp] theorem appendWindow_cfg1 : (appendWindow s).cfg1 = s.cfg1 := by
  unfold appendWindow; split <;> [split; skip] <;> rfl
@[simp] theorem appendWindow_cfg2 : (appendWindow s).cfg2 = s.cfg2 := by
  unfold appendWindow; split <;> [split; skip] <;> rfl
@[simp] theorem appendWindow_sampleRate : (appendWindow s).sampleRate = s.sampleRate := by
  unfold appendWindow; split <;> [split; skip] <;> rfl

/-! ### `syncAbsent` -/

@[simp] theorem syncAbsent_hostIn : (syncAbsent s).hostIn = s.hostIn := by unfold syncAbsent; rfl
@[simp] theorem syncAbsent_hostOut : (syncAbsent s).hostOut = s.hostOut := by unfold syncAbsent; rfl
@[simp] theorem syncAbsent_sb : (syncAbsent s).sb = s.sb := by unfold syncAbsent; rfl
@[simp] theorem syncAbsent_el : (syncAbsent s).el = s.el := by unfold syncAbsent; rfl
@[simp] theorem syncAbsent_elValid : (syncAbsent s).elValid = s.elValid := by unfold syncAbsent; rfl
@[simp] theorem syncAbsent_edgeCount :
    (syncAbsent s).edgeCount = s.edgeCount := by unfold syncAbsent; rfl
@[simp] theorem syncAbsent_bl : (syncAbsent s).bl = s.bl := by unfold syncAbsent; rfl
@[simp] theorem syncAbsent_blValid : (syncAbsent s).blValid = s.blValid := by unfold syncAbsent; rfl
@[simp] theorem syncAbsent_pulseCount :
    (syncAbsent s).pulseCount = s.pulseCount := by unfold syncAbsent; rfl
@[simp] theorem syncAbsent_pulseSum :
    (syncAbsent s).pulseSum = s.pulseSum := by unfold syncAbsent; rfl
@[simp] theorem syncAbsent_shortCount :
    (syncAbsent s).shortCount = s.shortCount := by unfold syncAbsent; rfl
@[simp] theorem syncAbsent_longCount :
    (syncAbsent s).longCount = s.longCount := by unfold syncAbsent; rfl
@[simp] theorem syncAbsent_shortPct :
    (syncAbsent s).shortPct = s.shortPct := by unfold syncAbsent; rfl
@[simp] theorem syncAbsent_longPct : (syncAbsent s).longPct = s.longPct := by unfold syncAbsent; rfl
@[simp] theorem syncAbsent_ltcLike : (syncAbsent s).ltcLike = s.ltcLike := by unfold syncAbsent; rfl
@[simp] theorem syncAbsent_acc :
    (syncAbsent s).acc = lastBits (Config.syncLen - 1) s.acc := by unfold syncAbsent; rfl
@[simp] theorem syncAbsent_deferCnt : (syncAbsent s).deferCnt = 0#4 := by unfold syncAbsent; rfl
@[simp] theorem syncAbsent_frame : (syncAbsent s).frame = s.frame := by unfold syncAbsent; rfl
@[simp] theorem syncAbsent_frameValid :
    (syncAbsent s).frameValid = s.frameValid := by unfold syncAbsent; rfl
@[simp] theorem syncAbsent_evq : (syncAbsent s).evq = s.evq := by unfold syncAbsent; rfl
@[simp] theorem syncAbsent_result : (syncAbsent s).result = 10#4 := by unfold syncAbsent; rfl
@[simp] theorem syncAbsent_winFlags :
    (syncAbsent s).winFlags = s.winFlags ||| 0x00000400#32 := by unfold syncAbsent; rfl
@[simp] theorem syncAbsent_winFrames :
    (syncAbsent s).winFrames = s.winFrames := by unfold syncAbsent; rfl
@[simp] theorem syncAbsent_winEvents :
    (syncAbsent s).winEvents = s.winEvents := by unfold syncAbsent; rfl
@[simp] theorem syncAbsent_winInvalid :
    (syncAbsent s).winInvalid = s.winInvalid := by unfold syncAbsent; rfl
@[simp] theorem syncAbsent_sbOvf : (syncAbsent s).sbOvf = s.sbOvf := by unfold syncAbsent; rfl
@[simp] theorem syncAbsent_accOvf : (syncAbsent s).accOvf = s.accOvf := by unfold syncAbsent; rfl
@[simp] theorem syncAbsent_evOvf : (syncAbsent s).evOvf = s.evOvf := by unfold syncAbsent; rfl
@[simp] theorem syncAbsent_errSeq : (syncAbsent s).errSeq = s.errSeq := by unfold syncAbsent; rfl
@[simp] theorem syncAbsent_errCmd : (syncAbsent s).errCmd = s.errCmd := by unfold syncAbsent; rfl
@[simp] theorem syncAbsent_errBus : (syncAbsent s).errBus = s.errBus := by unfold syncAbsent; rfl
@[simp] theorem syncAbsent_cfg0 : (syncAbsent s).cfg0 = s.cfg0 := by unfold syncAbsent; rfl
@[simp] theorem syncAbsent_cfg1 : (syncAbsent s).cfg1 = s.cfg1 := by unfold syncAbsent; rfl
@[simp] theorem syncAbsent_cfg2 : (syncAbsent s).cfg2 = s.cfg2 := by unfold syncAbsent; rfl
@[simp] theorem syncAbsent_sampleRate :
    (syncAbsent s).sampleRate = s.sampleRate := by unfold syncAbsent; rfl

/-! ### `extractFrame` -/

@[simp] theorem extractFrame_hostIn (i : Nat) : (extractFrame i s).hostIn = s.hostIn := rfl
@[simp] theorem extractFrame_hostOut (i : Nat) : (extractFrame i s).hostOut = s.hostOut := rfl
@[simp] theorem extractFrame_sb (i : Nat) : (extractFrame i s).sb = s.sb := rfl
@[simp] theorem extractFrame_el (i : Nat) : (extractFrame i s).el = s.el := rfl
@[simp] theorem extractFrame_elValid (i : Nat) : (extractFrame i s).elValid = s.elValid := rfl
@[simp] theorem extractFrame_edgeCount (i : Nat) :
    (extractFrame i s).edgeCount = s.edgeCount := rfl
@[simp] theorem extractFrame_bl (i : Nat) : (extractFrame i s).bl = s.bl := rfl
@[simp] theorem extractFrame_blValid (i : Nat) : (extractFrame i s).blValid = s.blValid := rfl
@[simp] theorem extractFrame_pulseCount (i : Nat) :
    (extractFrame i s).pulseCount = s.pulseCount := rfl
@[simp] theorem extractFrame_pulseSum (i : Nat) :
    (extractFrame i s).pulseSum = s.pulseSum := rfl
@[simp] theorem extractFrame_shortCount (i : Nat) :
    (extractFrame i s).shortCount = s.shortCount := rfl
@[simp] theorem extractFrame_longCount (i : Nat) :
    (extractFrame i s).longCount = s.longCount := rfl
@[simp] theorem extractFrame_shortPct (i : Nat) :
    (extractFrame i s).shortPct = s.shortPct := rfl
@[simp] theorem extractFrame_longPct (i : Nat) : (extractFrame i s).longPct = s.longPct := rfl
@[simp] theorem extractFrame_ltcLike (i : Nat) : (extractFrame i s).ltcLike = s.ltcLike := rfl
@[simp] theorem extractFrame_acc (i : Nat) : (extractFrame i s).acc = s.acc.drop i := rfl
@[simp] theorem extractFrame_deferCnt (i : Nat) : (extractFrame i s).deferCnt = 0#4 := rfl
@[simp] theorem extractFrame_frame (i : Nat) :
    (extractFrame i s).frame = frameOfBits ((s.acc.drop i).take Config.frameLen) := rfl
@[simp] theorem extractFrame_frameValid (i : Nat) : (extractFrame i s).frameValid = true := rfl
@[simp] theorem extractFrame_evq (i : Nat) : (extractFrame i s).evq = s.evq := rfl
@[simp] theorem extractFrame_result (i : Nat) : (extractFrame i s).result = 3#4 := rfl
@[simp] theorem extractFrame_winFlags (i : Nat) :
    (extractFrame i s).winFlags = s.winFlags ||| 0x00000008#32 := rfl
@[simp] theorem extractFrame_winFrames (i : Nat) :
    (extractFrame i s).winFrames = s.winFrames + 1#32 := rfl
@[simp] theorem extractFrame_winEvents (i : Nat) :
    (extractFrame i s).winEvents = s.winEvents := rfl
@[simp] theorem extractFrame_winInvalid (i : Nat) :
    (extractFrame i s).winInvalid = s.winInvalid := rfl
@[simp] theorem extractFrame_sbOvf (i : Nat) : (extractFrame i s).sbOvf = s.sbOvf := rfl
@[simp] theorem extractFrame_accOvf (i : Nat) : (extractFrame i s).accOvf = s.accOvf := rfl
@[simp] theorem extractFrame_evOvf (i : Nat) : (extractFrame i s).evOvf = s.evOvf := rfl
@[simp] theorem extractFrame_errSeq (i : Nat) : (extractFrame i s).errSeq = s.errSeq := rfl
@[simp] theorem extractFrame_errCmd (i : Nat) : (extractFrame i s).errCmd = s.errCmd := rfl
@[simp] theorem extractFrame_errBus (i : Nat) : (extractFrame i s).errBus = s.errBus := rfl
@[simp] theorem extractFrame_cfg0 (i : Nat) : (extractFrame i s).cfg0 = s.cfg0 := rfl
@[simp] theorem extractFrame_cfg1 (i : Nat) : (extractFrame i s).cfg1 = s.cfg1 := rfl
@[simp] theorem extractFrame_cfg2 (i : Nat) : (extractFrame i s).cfg2 = s.cfg2 := rfl
@[simp] theorem extractFrame_sampleRate (i : Nat) :
    (extractFrame i s).sampleRate = s.sampleRate := rfl

/-! ### `deferMatch` -/

@[simp] theorem deferMatch_hostIn (p : Nat) : (deferMatch p s).hostIn = s.hostIn := rfl
@[simp] theorem deferMatch_hostOut (p : Nat) : (deferMatch p s).hostOut = s.hostOut := rfl
@[simp] theorem deferMatch_sb (p : Nat) : (deferMatch p s).sb = s.sb := rfl
@[simp] theorem deferMatch_el (p : Nat) : (deferMatch p s).el = s.el := rfl
@[simp] theorem deferMatch_elValid (p : Nat) : (deferMatch p s).elValid = s.elValid := rfl
@[simp] theorem deferMatch_edgeCount (p : Nat) : (deferMatch p s).edgeCount = s.edgeCount := rfl
@[simp] theorem deferMatch_bl (p : Nat) : (deferMatch p s).bl = s.bl := rfl
@[simp] theorem deferMatch_blValid (p : Nat) : (deferMatch p s).blValid = s.blValid := rfl
@[simp] theorem deferMatch_pulseCount (p : Nat) :
    (deferMatch p s).pulseCount = s.pulseCount := rfl
@[simp] theorem deferMatch_pulseSum (p : Nat) : (deferMatch p s).pulseSum = s.pulseSum := rfl
@[simp] theorem deferMatch_shortCount (p : Nat) :
    (deferMatch p s).shortCount = s.shortCount := rfl
@[simp] theorem deferMatch_longCount (p : Nat) : (deferMatch p s).longCount = s.longCount := rfl
@[simp] theorem deferMatch_shortPct (p : Nat) : (deferMatch p s).shortPct = s.shortPct := rfl
@[simp] theorem deferMatch_longPct (p : Nat) : (deferMatch p s).longPct = s.longPct := rfl
@[simp] theorem deferMatch_ltcLike (p : Nat) : (deferMatch p s).ltcLike = s.ltcLike := rfl
@[simp] theorem deferMatch_acc (p : Nat) : (deferMatch p s).acc = s.acc.drop p := rfl
@[simp] theorem deferMatch_deferCnt (p : Nat) :
    (deferMatch p s).deferCnt = s.deferCnt + 1#4 := rfl
@[simp] theorem deferMatch_frame (p : Nat) : (deferMatch p s).frame = s.frame := rfl
@[simp] theorem deferMatch_frameValid (p : Nat) :
    (deferMatch p s).frameValid = s.frameValid := rfl
@[simp] theorem deferMatch_evq (p : Nat) : (deferMatch p s).evq = s.evq := rfl
@[simp] theorem deferMatch_result (p : Nat) : (deferMatch p s).result = 5#4 := rfl
@[simp] theorem deferMatch_winFlags (p : Nat) :
    (deferMatch p s).winFlags = s.winFlags ||| 0x00000020#32 := rfl
@[simp] theorem deferMatch_winFrames (p : Nat) : (deferMatch p s).winFrames = s.winFrames := rfl
@[simp] theorem deferMatch_winEvents (p : Nat) : (deferMatch p s).winEvents = s.winEvents := rfl
@[simp] theorem deferMatch_winInvalid (p : Nat) :
    (deferMatch p s).winInvalid = s.winInvalid := rfl
@[simp] theorem deferMatch_sbOvf (p : Nat) : (deferMatch p s).sbOvf = s.sbOvf := rfl
@[simp] theorem deferMatch_accOvf (p : Nat) : (deferMatch p s).accOvf = s.accOvf := rfl
@[simp] theorem deferMatch_evOvf (p : Nat) : (deferMatch p s).evOvf = s.evOvf := rfl
@[simp] theorem deferMatch_errSeq (p : Nat) : (deferMatch p s).errSeq = s.errSeq := rfl
@[simp] theorem deferMatch_errCmd (p : Nat) : (deferMatch p s).errCmd = s.errCmd := rfl
@[simp] theorem deferMatch_errBus (p : Nat) : (deferMatch p s).errBus = s.errBus := rfl
@[simp] theorem deferMatch_cfg0 (p : Nat) : (deferMatch p s).cfg0 = s.cfg0 := rfl
@[simp] theorem deferMatch_cfg1 (p : Nat) : (deferMatch p s).cfg1 = s.cfg1 := rfl
@[simp] theorem deferMatch_cfg2 (p : Nat) : (deferMatch p s).cfg2 = s.cfg2 := rfl
@[simp] theorem deferMatch_sampleRate (p : Nat) :
    (deferMatch p s).sampleRate = s.sampleRate := rfl

/-! ### `giveUpMatch` -/

@[simp] theorem giveUpMatch_hostIn (i : Nat) : (giveUpMatch i s).hostIn = s.hostIn := rfl
@[simp] theorem giveUpMatch_hostOut (i : Nat) : (giveUpMatch i s).hostOut = s.hostOut := rfl
@[simp] theorem giveUpMatch_sb (i : Nat) : (giveUpMatch i s).sb = s.sb := rfl
@[simp] theorem giveUpMatch_el (i : Nat) : (giveUpMatch i s).el = s.el := rfl
@[simp] theorem giveUpMatch_elValid (i : Nat) : (giveUpMatch i s).elValid = s.elValid := rfl
@[simp] theorem giveUpMatch_edgeCount (i : Nat) :
    (giveUpMatch i s).edgeCount = s.edgeCount := rfl
@[simp] theorem giveUpMatch_bl (i : Nat) : (giveUpMatch i s).bl = s.bl := rfl
@[simp] theorem giveUpMatch_blValid (i : Nat) : (giveUpMatch i s).blValid = s.blValid := rfl
@[simp] theorem giveUpMatch_pulseCount (i : Nat) :
    (giveUpMatch i s).pulseCount = s.pulseCount := rfl
@[simp] theorem giveUpMatch_pulseSum (i : Nat) : (giveUpMatch i s).pulseSum = s.pulseSum := rfl
@[simp] theorem giveUpMatch_shortCount (i : Nat) :
    (giveUpMatch i s).shortCount = s.shortCount := rfl
@[simp] theorem giveUpMatch_longCount (i : Nat) :
    (giveUpMatch i s).longCount = s.longCount := rfl
@[simp] theorem giveUpMatch_shortPct (i : Nat) : (giveUpMatch i s).shortPct = s.shortPct := rfl
@[simp] theorem giveUpMatch_longPct (i : Nat) : (giveUpMatch i s).longPct = s.longPct := rfl
@[simp] theorem giveUpMatch_ltcLike (i : Nat) : (giveUpMatch i s).ltcLike = s.ltcLike := rfl
@[simp] theorem giveUpMatch_acc (i : Nat) : (giveUpMatch i s).acc = s.acc.drop i := rfl
@[simp] theorem giveUpMatch_deferCnt (i : Nat) : (giveUpMatch i s).deferCnt = 0#4 := rfl
@[simp] theorem giveUpMatch_frame (i : Nat) : (giveUpMatch i s).frame = s.frame := rfl
@[simp] theorem giveUpMatch_frameValid (i : Nat) :
    (giveUpMatch i s).frameValid = s.frameValid := rfl
@[simp] theorem giveUpMatch_evq (i : Nat) : (giveUpMatch i s).evq = s.evq := rfl
@[simp] theorem giveUpMatch_result (i : Nat) : (giveUpMatch i s).result = 10#4 := rfl
@[simp] theorem giveUpMatch_winFlags (i : Nat) :
    (giveUpMatch i s).winFlags = s.winFlags ||| 0x00000400#32 := rfl
@[simp] theorem giveUpMatch_winFrames (i : Nat) :
    (giveUpMatch i s).winFrames = s.winFrames := rfl
@[simp] theorem giveUpMatch_winEvents (i : Nat) :
    (giveUpMatch i s).winEvents = s.winEvents := rfl
@[simp] theorem giveUpMatch_winInvalid (i : Nat) :
    (giveUpMatch i s).winInvalid = s.winInvalid := rfl
@[simp] theorem giveUpMatch_sbOvf (i : Nat) : (giveUpMatch i s).sbOvf = s.sbOvf := rfl
@[simp] theorem giveUpMatch_accOvf (i : Nat) : (giveUpMatch i s).accOvf = s.accOvf := rfl
@[simp] theorem giveUpMatch_evOvf (i : Nat) : (giveUpMatch i s).evOvf = s.evOvf := rfl
@[simp] theorem giveUpMatch_errSeq (i : Nat) : (giveUpMatch i s).errSeq = s.errSeq := rfl
@[simp] theorem giveUpMatch_errCmd (i : Nat) : (giveUpMatch i s).errCmd = s.errCmd := rfl
@[simp] theorem giveUpMatch_errBus (i : Nat) : (giveUpMatch i s).errBus = s.errBus := rfl
@[simp] theorem giveUpMatch_cfg0 (i : Nat) : (giveUpMatch i s).cfg0 = s.cfg0 := rfl
@[simp] theorem giveUpMatch_cfg1 (i : Nat) : (giveUpMatch i s).cfg1 = s.cfg1 := rfl
@[simp] theorem giveUpMatch_cfg2 (i : Nat) : (giveUpMatch i s).cfg2 = s.cfg2 := rfl
@[simp] theorem giveUpMatch_sampleRate (i : Nat) :
    (giveUpMatch i s).sampleRate = s.sampleRate := rfl

/-! ### `pushEvent` -/

@[simp] theorem pushEvent_hostIn (e : Word) :
    (pushEvent e s).hostIn = s.hostIn := by
  unfold pushEvent; split <;> rfl
@[simp] theorem pushEvent_hostOut (e : Word) :
    (pushEvent e s).hostOut = s.hostOut := by
  unfold pushEvent; split <;> rfl
@[simp] theorem pushEvent_sb (e : Word) :
    (pushEvent e s).sb = s.sb := by
  unfold pushEvent; split <;> rfl
@[simp] theorem pushEvent_el (e : Word) :
    (pushEvent e s).el = s.el := by
  unfold pushEvent; split <;> rfl
@[simp] theorem pushEvent_elValid (e : Word) :
    (pushEvent e s).elValid = s.elValid := by
  unfold pushEvent; split <;> rfl
@[simp] theorem pushEvent_edgeCount (e : Word) :
    (pushEvent e s).edgeCount = s.edgeCount := by
  unfold pushEvent; split <;> rfl
@[simp] theorem pushEvent_bl (e : Word) :
    (pushEvent e s).bl = s.bl := by
  unfold pushEvent; split <;> rfl
@[simp] theorem pushEvent_blValid (e : Word) :
    (pushEvent e s).blValid = s.blValid := by
  unfold pushEvent; split <;> rfl
@[simp] theorem pushEvent_pulseCount (e : Word) :
    (pushEvent e s).pulseCount = s.pulseCount := by
  unfold pushEvent; split <;> rfl
@[simp] theorem pushEvent_pulseSum (e : Word) :
    (pushEvent e s).pulseSum = s.pulseSum := by
  unfold pushEvent; split <;> rfl
@[simp] theorem pushEvent_shortCount (e : Word) :
    (pushEvent e s).shortCount = s.shortCount := by
  unfold pushEvent; split <;> rfl
@[simp] theorem pushEvent_longCount (e : Word) :
    (pushEvent e s).longCount = s.longCount := by
  unfold pushEvent; split <;> rfl
@[simp] theorem pushEvent_shortPct (e : Word) :
    (pushEvent e s).shortPct = s.shortPct := by
  unfold pushEvent; split <;> rfl
@[simp] theorem pushEvent_longPct (e : Word) :
    (pushEvent e s).longPct = s.longPct := by
  unfold pushEvent; split <;> rfl
@[simp] theorem pushEvent_ltcLike (e : Word) :
    (pushEvent e s).ltcLike = s.ltcLike := by
  unfold pushEvent; split <;> rfl
@[simp] theorem pushEvent_acc (e : Word) :
    (pushEvent e s).acc = s.acc := by
  unfold pushEvent; split <;> rfl
@[simp] theorem pushEvent_deferCnt (e : Word) :
    (pushEvent e s).deferCnt = s.deferCnt := by
  unfold pushEvent; split <;> rfl
@[simp] theorem pushEvent_frame (e : Word) :
    (pushEvent e s).frame = s.frame := by
  unfold pushEvent; split <;> rfl
@[simp] theorem pushEvent_frameValid (e : Word) :
    (pushEvent e s).frameValid = s.frameValid := by
  unfold pushEvent; split <;> rfl
@[simp] theorem pushEvent_result (e : Word) :
    (pushEvent e s).result = s.result := by
  unfold pushEvent; split <;> rfl
@[simp] theorem pushEvent_winFlags (e : Word) :
    (pushEvent e s).winFlags = s.winFlags := by
  unfold pushEvent; split <;> rfl
@[simp] theorem pushEvent_winFrames (e : Word) :
    (pushEvent e s).winFrames = s.winFrames := by
  unfold pushEvent; split <;> rfl
@[simp] theorem pushEvent_winEvents (e : Word) :
    (pushEvent e s).winEvents = s.winEvents := by
  unfold pushEvent; split <;> rfl
@[simp] theorem pushEvent_winInvalid (e : Word) :
    (pushEvent e s).winInvalid = s.winInvalid := by
  unfold pushEvent; split <;> rfl
@[simp] theorem pushEvent_sbOvf (e : Word) :
    (pushEvent e s).sbOvf = s.sbOvf := by
  unfold pushEvent; split <;> rfl
@[simp] theorem pushEvent_accOvf (e : Word) :
    (pushEvent e s).accOvf = s.accOvf := by
  unfold pushEvent; split <;> rfl
@[simp] theorem pushEvent_errSeq (e : Word) :
    (pushEvent e s).errSeq = s.errSeq := by
  unfold pushEvent; split <;> rfl
@[simp] theorem pushEvent_errCmd (e : Word) :
    (pushEvent e s).errCmd = s.errCmd := by
  unfold pushEvent; split <;> rfl
@[simp] theorem pushEvent_errBus (e : Word) :
    (pushEvent e s).errBus = s.errBus := by
  unfold pushEvent; split <;> rfl
@[simp] theorem pushEvent_cfg0 (e : Word) :
    (pushEvent e s).cfg0 = s.cfg0 := by
  unfold pushEvent; split <;> rfl
@[simp] theorem pushEvent_cfg1 (e : Word) :
    (pushEvent e s).cfg1 = s.cfg1 := by
  unfold pushEvent; split <;> rfl
@[simp] theorem pushEvent_cfg2 (e : Word) :
    (pushEvent e s).cfg2 = s.cfg2 := by
  unfold pushEvent; split <;> rfl
@[simp] theorem pushEvent_sampleRate (e : Word) :
    (pushEvent e s).sampleRate = s.sampleRate := by
  unfold pushEvent; split <;> rfl

/-! ### `acceptFrame` -/

@[simp] theorem acceptFrame_hostIn : (acceptFrame s).hostIn = s.hostIn := by simp [acceptFrame]
@[simp] theorem acceptFrame_hostOut : (acceptFrame s).hostOut = s.hostOut := by simp [acceptFrame]
@[simp] theorem acceptFrame_sb : (acceptFrame s).sb = s.sb := by simp [acceptFrame]
@[simp] theorem acceptFrame_el : (acceptFrame s).el = s.el := by simp [acceptFrame]
@[simp] theorem acceptFrame_elValid : (acceptFrame s).elValid = s.elValid := by simp [acceptFrame]
@[simp] theorem acceptFrame_edgeCount :
    (acceptFrame s).edgeCount = s.edgeCount := by simp [acceptFrame]
@[simp] theorem acceptFrame_bl : (acceptFrame s).bl = s.bl := by simp [acceptFrame]
@[simp] theorem acceptFrame_blValid : (acceptFrame s).blValid = s.blValid := by simp [acceptFrame]
@[simp] theorem acceptFrame_pulseCount :
    (acceptFrame s).pulseCount = s.pulseCount := by simp [acceptFrame]
@[simp] theorem acceptFrame_pulseSum :
    (acceptFrame s).pulseSum = s.pulseSum := by simp [acceptFrame]
@[simp] theorem acceptFrame_shortCount :
    (acceptFrame s).shortCount = s.shortCount := by simp [acceptFrame]
@[simp] theorem acceptFrame_longCount :
    (acceptFrame s).longCount = s.longCount := by simp [acceptFrame]
@[simp] theorem acceptFrame_shortPct :
    (acceptFrame s).shortPct = s.shortPct := by simp [acceptFrame]
@[simp] theorem acceptFrame_longPct : (acceptFrame s).longPct = s.longPct := by simp [acceptFrame]
@[simp] theorem acceptFrame_ltcLike : (acceptFrame s).ltcLike = s.ltcLike := by simp [acceptFrame]
@[simp] theorem acceptFrame_acc : (acceptFrame s).acc = s.acc := by simp [acceptFrame]
@[simp] theorem acceptFrame_deferCnt :
    (acceptFrame s).deferCnt = s.deferCnt := by simp [acceptFrame]
@[simp] theorem acceptFrame_frame : (acceptFrame s).frame = s.frame := by simp [acceptFrame]
@[simp] theorem acceptFrame_frameValid :
    (acceptFrame s).frameValid = s.frameValid := by simp [acceptFrame]
@[simp] theorem acceptFrame_result : (acceptFrame s).result = 4#4 := rfl
@[simp] theorem acceptFrame_winFlags : (acceptFrame s).winFlags = s.winFlags ||| 0x00000010#32 := by
  simp [acceptFrame, Code.winFlag, Code.inWinFlags, Code.value]
@[simp] theorem acceptFrame_winFrames :
    (acceptFrame s).winFrames = s.winFrames := by simp [acceptFrame]
@[simp] theorem acceptFrame_winEvents :
    (acceptFrame s).winEvents = s.winEvents + 1#32 := by simp [acceptFrame]
@[simp] theorem acceptFrame_winInvalid :
    (acceptFrame s).winInvalid = s.winInvalid := by simp [acceptFrame]
@[simp] theorem acceptFrame_sbOvf : (acceptFrame s).sbOvf = s.sbOvf := by simp [acceptFrame]
@[simp] theorem acceptFrame_accOvf : (acceptFrame s).accOvf = s.accOvf := by simp [acceptFrame]
@[simp] theorem acceptFrame_errSeq : (acceptFrame s).errSeq = s.errSeq := by simp [acceptFrame]
@[simp] theorem acceptFrame_errCmd : (acceptFrame s).errCmd = s.errCmd := by simp [acceptFrame]
@[simp] theorem acceptFrame_errBus : (acceptFrame s).errBus = s.errBus := by simp [acceptFrame]
@[simp] theorem acceptFrame_cfg0 : (acceptFrame s).cfg0 = s.cfg0 := by simp [acceptFrame]
@[simp] theorem acceptFrame_cfg1 : (acceptFrame s).cfg1 = s.cfg1 := by simp [acceptFrame]
@[simp] theorem acceptFrame_cfg2 : (acceptFrame s).cfg2 = s.cfg2 := by simp [acceptFrame]
@[simp] theorem acceptFrame_sampleRate :
    (acceptFrame s).sampleRate = s.sampleRate := by simp [acceptFrame]

/-! ### `rejectFrame` -/

@[simp] theorem rejectFrame_hostIn : (rejectFrame s).hostIn = s.hostIn := rfl
@[simp] theorem rejectFrame_hostOut : (rejectFrame s).hostOut = s.hostOut := rfl
@[simp] theorem rejectFrame_sb : (rejectFrame s).sb = s.sb := rfl
@[simp] theorem rejectFrame_el : (rejectFrame s).el = s.el := rfl
@[simp] theorem rejectFrame_elValid : (rejectFrame s).elValid = s.elValid := rfl
@[simp] theorem rejectFrame_edgeCount : (rejectFrame s).edgeCount = s.edgeCount := rfl
@[simp] theorem rejectFrame_bl : (rejectFrame s).bl = s.bl := rfl
@[simp] theorem rejectFrame_blValid : (rejectFrame s).blValid = s.blValid := rfl
@[simp] theorem rejectFrame_pulseCount : (rejectFrame s).pulseCount = s.pulseCount := rfl
@[simp] theorem rejectFrame_pulseSum : (rejectFrame s).pulseSum = s.pulseSum := rfl
@[simp] theorem rejectFrame_shortCount : (rejectFrame s).shortCount = s.shortCount := rfl
@[simp] theorem rejectFrame_longCount : (rejectFrame s).longCount = s.longCount := rfl
@[simp] theorem rejectFrame_shortPct : (rejectFrame s).shortPct = s.shortPct := rfl
@[simp] theorem rejectFrame_longPct : (rejectFrame s).longPct = s.longPct := rfl
@[simp] theorem rejectFrame_ltcLike : (rejectFrame s).ltcLike = s.ltcLike := rfl
@[simp] theorem rejectFrame_acc : (rejectFrame s).acc = s.acc := rfl
@[simp] theorem rejectFrame_deferCnt : (rejectFrame s).deferCnt = s.deferCnt := rfl
@[simp] theorem rejectFrame_frame : (rejectFrame s).frame = s.frame := rfl
@[simp] theorem rejectFrame_frameValid : (rejectFrame s).frameValid = s.frameValid := rfl
@[simp] theorem rejectFrame_evq : (rejectFrame s).evq = s.evq := rfl
@[simp] theorem rejectFrame_result : (rejectFrame s).result = 11#4 := rfl
@[simp] theorem rejectFrame_winFlags :
    (rejectFrame s).winFlags = s.winFlags ||| 0x00000800#32 := rfl
@[simp] theorem rejectFrame_winFrames : (rejectFrame s).winFrames = s.winFrames := rfl
@[simp] theorem rejectFrame_winEvents : (rejectFrame s).winEvents = s.winEvents := rfl
@[simp] theorem rejectFrame_winInvalid : (rejectFrame s).winInvalid = s.winInvalid + 1#32 := rfl
@[simp] theorem rejectFrame_sbOvf : (rejectFrame s).sbOvf = s.sbOvf := rfl
@[simp] theorem rejectFrame_accOvf : (rejectFrame s).accOvf = s.accOvf := rfl
@[simp] theorem rejectFrame_evOvf : (rejectFrame s).evOvf = s.evOvf := rfl
@[simp] theorem rejectFrame_errSeq : (rejectFrame s).errSeq = s.errSeq := rfl
@[simp] theorem rejectFrame_errCmd : (rejectFrame s).errCmd = s.errCmd := rfl
@[simp] theorem rejectFrame_errBus : (rejectFrame s).errBus = s.errBus := rfl
@[simp] theorem rejectFrame_cfg0 : (rejectFrame s).cfg0 = s.cfg0 := rfl
@[simp] theorem rejectFrame_cfg1 : (rejectFrame s).cfg1 = s.cfg1 := rfl
@[simp] theorem rejectFrame_cfg2 : (rejectFrame s).cfg2 = s.cfg2 := rfl
@[simp] theorem rejectFrame_sampleRate : (rejectFrame s).sampleRate = s.sampleRate := rfl

end Sys2Proof.Machine
end

