-- ==== Sys2Proof/Laws/Units.lean ====
section
/-! SUPPORT. Laws/Units.lean: for each shared operation, once, everything it can do, so that later
proofs cite a lemma instead of unfolding the operation. -/

namespace Sys2Proof.Machine

/-! ## Sequences -/

theorem lastBits_length (n : Nat) (l : Bits) : (lastBits n l).length = min n l.length := by
  simp only [lastBits, List.length_drop]; omega

/-- The append of SYNC, as one record update. -/
theorem appendWindow_eq (s : State) : appendWindow s = appended s := by
  unfold appendWindow appended afterAppend
  by_cases hb : s.blValid = true
  · rw [if_pos hb, if_pos hb]
    split
    · next h =>
      rw [List.length_append] at h
      simp [lastBits, hb, h]
    · next h =>
      have h0 : (s.acc ++ s.bl).length - Config.accCap = 0 := by omega
      rw [h0, List.length_append] at *
      simp [hb]
      omega
  · rw [if_neg hb, if_neg hb]
    cases s; simp_all

theorem syncWord_length : Config.syncWord.length = 16 := rfl

/-- The sync word stands at the front of a list exactly when it is its first 16 elements. -/
theorem isPrefixOf_syncWord (a : Bits) : Config.syncWord.isPrefixOf a = true ↔ SyncAt a 0 := by
  rw [List.isPrefixOf_iff_prefix, List.prefix_iff_getElem?]
  simp only [SyncAt, Nat.zero_add]
  constructor
  · intro h
    refine ⟨?_, fun j hj => (h j hj).trans (List.getElem?_eq_getElem (l := Config.syncWord) hj).symm⟩
    obtain ⟨h15, -⟩ := List.getElem?_eq_some_iff.mp (h 15 (by decide))
    omega
  · rintro ⟨-, h⟩ j hj
    rw [h j hj, List.getElem?_eq_getElem hj]

/-- A match in a list with one more bit in front is a match at the front or one further on. -/
theorem syncAt_cons_succ (b : Bool) (bs : Bits) (p : Nat) :
    SyncAt (b :: bs) (p + 1) ↔ SyncAt bs p := by
  simp only [SyncAt, List.length_cons]
  constructor
  · rintro ⟨h, hj⟩
    refine ⟨by omega, fun j h16 => ?_⟩
    have := hj j h16
    rwa [show p + 1 + j = (p + j) + 1 by omega, List.getElem?_cons_succ] at this
  · rintro ⟨h, hj⟩
    refine ⟨by omega, fun j h16 => ?_⟩
    rw [show p + 1 + j = (p + j) + 1 by omega, List.getElem?_cons_succ]
    exact hj j h16

/-- `findSync` answers the least offset of the sync word. -/
theorem findSync_eq_some (a : Bits) (p : Nat) : findSync a = some p ↔ FirstSyncAt a p := by
  induction a generalizing p with
  | nil => simp [findSync, FirstSyncAt, SyncAt]
  | cons b bs ih =>
    have hpre := isPrefixOf_syncWord (b :: bs)
    rw [findSync]
    by_cases h : Config.syncWord.isPrefixOf (b :: bs) = true
    · rw [if_pos h]
      have h0 := hpre.mp h
      constructor
      · rintro hp; cases hp; exact ⟨h0, fun q hq => absurd hq (by omega)⟩
      · rintro ⟨-, hq⟩
        cases p with
        | zero => rfl
        | succ p => exact absurd h0 (hq 0 (by omega))
    · rw [if_neg h]
      have h0 : ¬ SyncAt (b :: bs) 0 := fun hs => h (hpre.mpr hs)
      cases p with
      | zero =>
        constructor
        · intro hm; simp at hm
        · rintro ⟨hs, -⟩; exact absurd hs h0
      | succ p =>
        have : (findSync bs).map (· + 1) = some (p + 1) ↔ findSync bs = some p := by
          cases findSync bs <;> simp
        rw [this, ih]
        constructor
        · rintro ⟨hs, hq⟩
          refine ⟨(syncAt_cons_succ b bs p).mpr hs, fun q hlt => ?_⟩
          cases q with
          | zero => exact h0
          | succ q => exact fun hsq => hq q (by omega) ((syncAt_cons_succ b bs q).mp hsq)
        · rintro ⟨hs, hq⟩
          exact ⟨(syncAt_cons_succ b bs p).mp hs, fun q hlt hsq =>
            hq (q + 1) (by omega) ((syncAt_cons_succ b bs q).mpr hsq)⟩

/-- `findSync` answers none when the sync word stands nowhere. -/
theorem findSync_eq_none (a : Bits) : findSync a = none ↔ ∀ p, ¬ SyncAt a p := by
  induction a with
  | nil => simp [findSync, SyncAt]
  | cons b bs ih =>
    have hpre := isPrefixOf_syncWord (b :: bs)
    rw [findSync]
    by_cases h : Config.syncWord.isPrefixOf (b :: bs) = true
    · rw [if_pos h]
      exact ⟨fun hn => (nomatch hn), fun hn => absurd (hpre.mp h) (hn 0)⟩
    · rw [if_neg h, Option.map_eq_none_iff, ih]
      constructor
      · intro hn p
        cases p with
        | zero => exact fun hs => h (hpre.mpr hs)
        | succ p => exact fun hs => hn p ((syncAt_cons_succ b bs p).mp hs)
      · exact fun hn p hs => hn (p + 1) ((syncAt_cons_succ b bs p).mpr hs)

/-! ## What each unit can do -/

/-- EDGE, once: no signal or at least two edges. -/
theorem edgeUnit_cases (s : State) :
    ((edgesOf s.sb).length < 2 ∧
      edgeUnit s = recordOutcome .noSignal (discardBits { takeWindow s with elValid := false })) ∨
    (2 ≤ (edgesOf s.sb).length ∧
      edgeUnit s = recordOutcome .edgesOk { takeWindow s with elValid := true }) := by
  unfold edgeUnit
  split
  · exact .inl ⟨‹_›, rfl⟩
  · exact .inr ⟨by omega, rfl⟩

/-- CLASS, once: no edge list, a window rejected, or a window classified. -/
theorem classUnit_cases (s : State) :
    (s.elValid = false ∧ classUnit s = raise .seq s) ∨
    (s.elValid = true ∧ pulsesOf s.el < (minPulses s).toNat ∧
      classUnit s = rejectWindow (takeEdges s)) ∨
    (s.elValid = true ∧ (minPulses s).toNat ≤ pulsesOf s.el ∧
      classUnit s = acceptWindow (labels s) (pulsesOf s.el) (takeEdges s)) := by
  unfold classUnit
  split
  · split
    · exact .inr (.inl ⟨‹_›, ‹_›, rfl⟩)
    · exact .inr (.inr ⟨‹_›, by omega, rfl⟩)
  · next h => exact .inl ⟨eq_false_of_ne_true h, rfl⟩

/-- The search of SYNC, once: no match, a Frame, a deferral, or a match given up. -/
theorem searchAcc_cases (s : State) :
    ((∀ p, ¬ SyncAt s.acc p) ∧ searchAcc s = syncAbsent s) ∨
    ∃ p, FirstSyncAt s.acc p ∧
      ((p + 96 ≤ s.acc.length ∧ searchAcc s = extractFrame (p + 16) s) ∨
       (s.acc.length < p + 96 ∧ s.deferCnt < deferMax s ∧ searchAcc s = deferMatch p s) ∨
       (s.acc.length < p + 96 ∧ ¬ s.deferCnt < deferMax s ∧
        searchAcc s = giveUpMatch (p + 16) s)) := by
  unfold searchAcc
  have hc : Config.syncLen = 16 ∧ Config.frameLen = 80 := ⟨rfl, rfl⟩
  cases h : findSync s.acc with
  | none => exact .inl ⟨(findSync_eq_none _).mp h, rfl⟩
  | some p =>
    refine .inr ⟨p, (findSync_eq_some _ _).mp h, ?_⟩
    simp only [hc.1, hc.2]
    split
    · exact .inl ⟨by omega, rfl⟩
    · split
      · exact .inr (.inl ⟨by omega, ‹_›, rfl⟩)
      · exact .inr (.inr ⟨by omega, ‹_›, rfl⟩)

/-- DECODE, once: no candidate, an event, or an invalid frame. -/
theorem decodeUnit_cases (s : State) :
    (s.frameValid = false ∧ decodeUnit s = raise .seq s) ∨
    (s.frameValid = true ∧ digitsOk s.frame = true ∧ rangeOk (rateCode s) s.frame = true ∧
      decodeUnit s = acceptFrame { s with frameValid := false }) ∨
    (s.frameValid = true ∧ (digitsOk s.frame && rangeOk (rateCode s) s.frame) = false ∧
      decodeUnit s = rejectFrame { s with frameValid := false }) := by
  unfold decodeUnit
  split
  · split
    · next h => exact .inr (.inl ⟨‹_›, by simp_all, by simp_all, rfl⟩)
    · next h => exact .inr (.inr ⟨‹_›, eq_false_of_ne_true h, rfl⟩)
  · next h => exact .inl ⟨eq_false_of_ne_true h, rfl⟩

/-- The two checks of DECODE are the checks of the rules. -/
theorem checks_iff_validFrame (rate : BitVec 2) (f : BitVec 80) :
    (digitsOk f && rangeOk rate f) = true ↔ ValidFrame rate.toNat f := by
  have hf : fmax rate = fmaxOf rate.toNat := by
    have : rate.toNat < 4 := rate.isLt
    unfold fmax fmaxOf
    interval_cases rate.toNat <;> rfl
  simp only [digitsOk, rangeOk, allDigits, ValidFrame, List.all_cons, List.all_nil, digit,
    Digit.offset, nib_eq_nibbleAt, hoursField, minutesField, secondsField, framesField, fieldAt, hf,
    Bool.and_eq_true, decide_eq_true_eq, List.forall_mem_cons, and_true]
  simp [and_assoc]

/-- The event word DECODE makes is the number of the rule. -/
theorem eventOf_eq (rate : BitVec 2) (f : BitVec 80) :
    eventOf rate f = BitVec.ofNat 32 (eventNumber rate.toNat f) := by
  simp [eventOf, eventWord, eventNumber, fieldAt, hoursField, minutesField, secondsField,
    framesField, digit, Digit.offset, nib_eq_nibbleAt]

/-- An event enters the queue, once. -/
theorem pushEvent_cases (e : Word) (s : State) :
    (s.evq.length = Config.evqCap ∧
      pushEvent e s = { s with evq := s.evq.tail ++ [e], evOvf := true }) ∨
    (s.evq.length ≠ Config.evqCap ∧ pushEvent e s = { s with evq := s.evq ++ [e] }) := by
  unfold pushEvent
  split
  · exact .inl ⟨‹_›, rfl⟩
  · exact .inr ⟨‹_›, rfl⟩

/-- Every transaction answers a next state: no meaning faults or refuses. -/
theorem exec_answers_next (i : Instr) (s : State) : ∃ t, exec i s = .next t := by
  cases i with
  | push d => simp only [exec, execPush]; split <;> exact ⟨_, rfl⟩
  | pop => simp only [exec, execPop]; split <;> exact ⟨_, rfl⟩
  | _ => exact ⟨_, rfl⟩

/-- A step, once: idle, a transaction executed, or a reset. -/
theorem step_cases (s : State) :
    (s.hostIn = [] ∧ step s = .next s) ∨
    (∃ t rest, s.hostIn = .txn t :: rest ∧ step s = exec (decode t) { s with hostIn := rest }) ∨
    (∃ rest, s.hostIn = .reset :: rest ∧
      step s = .next { State.reset with hostIn := rest, hostOut := s.hostOut }) := by
  unfold step nextInput
  cases h : s.hostIn with
  | nil => exact .inl ⟨rfl, rfl⟩
  | cons i rest =>
    cases i with
    | txn t => exact .inr (.inl ⟨t, rest, rfl, rfl⟩)
    | reset => exact .inr (.inr ⟨rest, rfl, rfl⟩)

/-- A transaction the host is given to present is the next step's instruction. -/
theorem step_withFetchWord (s : State) (nbits w : Nat) (h : tableBits nbits w < 2 ^ 41) :
    step (s.withFetchWord nbits w) = exec (decode (BitVec.ofNat 41 (tableBits nbits w))) s := by
  simp only [State.withFetchWord, presentWord, if_pos h]
  rfl

end Sys2Proof.Machine
end

