-- ==== Sys2Proof/Laws/Classifier.lean ====
section
/-! SUPPORT. Laws/Classifier.lean: the operations of CLASS against the words of its rules: durations,
the median, the labels' number, and the two-means iteration against exact rational means
(41_pulse_classifier.md R121, R125, R126). -/

namespace Sys2Proof.Machine

/-! ## Durations -/

theorem durations_eq_gaps (el : List Nat) : durations el = gaps el := by
  apply List.ext_getElem
  · simp [durations, gaps]
  · intro i h1 h2
    simp only [durations, List.length_zipWith, List.length_tail] at h1
    simp only [durations, gaps, List.getElem_zipWith, List.getElem_tail, List.getElem_map,
      List.getElem_range]
    rw [List.getD_eq_getElem _ _ (by omega), List.getD_eq_getElem _ _ (by omega)]

theorem gaps_length (el : List Nat) : (gaps el).length = el.length - 1 := by simp [gaps]

/-- The durations add up to the span of the edge list. -/
theorem gaps_sum (el : List Nat) : (gaps el).sum = spanOf el := by
  rw [← durations_eq_gaps]
  induction el with
  | nil => rfl
  | cons a l ih =>
    cases l with
    | nil => simp [durations, spanOf]
    | cons b r =>
      have h : durations (a :: b :: r) = ((b : Int) - a) :: durations (b :: r) := rfl
      rw [h, List.sum_cons, ih]
      simp [spanOf, List.getLastD, List.headD]

/-! ## Labels -/

theorem twoMeansLoop_length (d : List Int) (n : Nat) (c : Clusters) (p : Option (List Bool)) :
    (twoMeansLoop d n c p).2.length = d.length := by
  induction n generalizing c p with
  | zero => simp [twoMeansLoop, assign]
  | succ n ih =>
    rw [twoMeansLoop]
    split
    · simp [assign]
    · exact ih _ _

/-- One label per pulse, whatever the strategy. -/
theorem labels_length (s : State) : (labels s).length = s.el.length - 1 := by
  rw [labels, durations_eq_gaps, ← gaps_length]
  split
  · simp only [clusterLabels]; split <;> simp [twoMeans, twoMeansLoop_length]
  · simp [thresholdLabels]

/-- Every label is SHORT or LONG. -/
theorem count_true_add_count_false (l : List Bool) : l.count true + l.count false = l.length := by
  induction l with
  | nil => rfl
  | cons b l ih => cases b <;> simp <;> omega

/-- A trusted window is classified by its labels. -/
theorem classUnit_accept (s : State) (hn : (minPulses s).toNat ≤ pulsesOf s.el)
    (hv : s.elValid = true) : classUnit s = classified (labels s) s := by
  have hlt : ¬ pulsesOf s.el < (minPulses s).toNat := by omega
  have hlen := labels_length s
  have hsplit := count_true_add_count_false (labels s)
  have hc : s.el.length - 1 - (labels s).count true = (labels s).count false := by omega
  have hb : (labels s).map bitOfLabel = labels s := List.map_id _
  rw [classUnit, if_pos hv, if_neg hlt]
  simp only [acceptWindow, recordOutcome, takeEdges, classified, pulsesOf, spanOf, hc, hb, percent,
    inBand, value_bitsOk, winFlag_bitsOk]
  congr 1
  simp [pctLo, pctHi, field_eq_extract, Bool.decide_and]
  rfl

/-! ## Adaptive threshold -/

/-- The median is that of any ascending arrangement of the durations. -/
theorem med2_eq_twiceMedian {d srt : List Int} (hp : srt.Perm d) (hs : srt.Pairwise (· ≤ ·)) :
    med2 d = twiceMedian srt := by
  have h : d.insertionSort (· ≤ ·) = srt :=
    List.Perm.eq_of_pairwise (le := (· ≤ ·)) (fun _ _ _ _ h1 h2 => le_antisymm h1 h2)
      (List.pairwise_insertionSort _ _) hs ((List.perm_insertionSort _ _).trans hp.symm)
  rw [med2, h, twiceMedian, hp.length_eq]

/-! ## Two clusters -/

/-- The integer clusters stand for the rational means: sum over count. -/
def StandsFor (c : Clusters) (m : Means) : Prop :=
  0 < c.cA ∧ 0 < c.cB ∧ m.a = (c.sA : ℚ) / c.cA ∧ m.b = (c.sB : ℚ) / c.cB

theorem seeds_standFor (d : List Int) : StandsFor (seeds d) (meansAfter d 0) := by
  simp [StandsFor, seeds, meansAfter]

/-- Comparing cross-multiplied distances is comparing distances to the means. -/
theorem nearA_eq_nearerA {c : Clusters} {m : Means} (h : StandsFor c m) (x : Int) :
    nearA c x = nearerA m x := by
  obtain ⟨hA, hB, ha, hb⟩ := h
  have hA' : (0 : ℚ) < c.cA := by exact_mod_cast hA
  have hB' : (0 : ℚ) < c.cB := by exact_mod_cast hB
  have dist : ∀ (n : Nat) (v : Int), (0 : ℚ) < n →
      |(x : ℚ) - v / n| = ((x * (n : Int) - v).natAbs : ℚ) / n := by
    intro n v hn
    rw [eq_div_iff hn.ne', Nat.cast_natAbs]
    nth_rewrite 2 [← abs_of_pos hn]
    rw [← abs_mul, sub_mul, div_mul_cancel₀ _ hn.ne']
    push_cast; rfl
  simp only [nearA, nearerA, decide_eq_decide]
  rw [ha, hb, dist _ _ hA', dist _ _ hB', div_le_div_iff₀ hA' hB']
  exact_mod_cast Iff.rfl

/-- One iteration on the clusters is one iteration on the means. -/
theorem updateClusters_standFor {c : Clusters} {d : List Int} {t : Nat}
    (h : StandsFor c (meansAfter d t)) : StandsFor (updateClusters c d) (meansAfter d (t + 1)) := by
  have hn := nearA_eq_nearerA h
  obtain ⟨hA, hB, ha, hb⟩ := h
  have pos : ∀ (l : List Int) (n : Nat), 0 < n → 0 < if l.isEmpty then n else l.length := by
    intro l n hn; split
    · exact hn
    · next h => exact List.length_pos_iff.mpr (by simpa using h)
  have mean : ∀ (l : List Int) (v : Int) (n : Nat) (q : ℚ), q = (v : ℚ) / n →
      meanOr l q = ((if l.isEmpty then v else l.sum : Int) : ℚ)
        / ((if l.isEmpty then n else l.length : Nat) : ℚ) := by
    intro l v n q hq
    simp only [meanOr, List.isEmpty_iff]; split <;> simp [*]
  simp only [updateClusters, meansAfter, hn]
  exact ⟨pos _ _ hA, pos _ _ hB, mean _ _ _ _ ha, mean _ _ _ _ hb⟩

theorem assign_eq_assignmentAt {c : Clusters} {d : List Int} {t : Nat}
    (h : StandsFor c (meansAfter d t)) : assign c d = assignmentAt d (t + 1) := by
  simp [assign, assignmentAt, nearA_eq_nearerA h]

/-- From iteration `t + 1` on, the loop ends with the means and the assignment of the last
iteration. -/
theorem twoMeansLoop_eq (d : List Int) (cap T : Nat) (hT : LastIteration cap d T) (more t : Nat)
    (c : Clusters) (hm : t + 1 + more = max cap 1) (ht : t + 1 ≤ T)
    (hc : StandsFor c (meansAfter d t)) :
    let r := twoMeansLoop d more c (if t = 0 then none else some (assignmentAt d t))
    StandsFor r.1 (meansAfter d T) ∧ r.2 = assignmentAt d T := by
  obtain ⟨-, hle, hend, hfirst⟩ := hT
  induction more generalizing t c with
  | zero =>
    obtain rfl : T = t + 1 := by omega
    exact ⟨updateClusters_standFor hc, assign_eq_assignmentAt hc⟩
  | succ more ih =>
    simp only
    rw [twoMeansLoop]
    by_cases hcv : Converged d (t + 1)
    · obtain rfl : T = t + 1 := by
        by_contra hne; exact hfirst (t + 1) (by omega) hcv
      have ht0 : t ≠ 0 := by have := hcv.1; omega
      rw [if_pos (by rw [if_neg ht0, assign_eq_assignmentAt hc]; exact congrArg some hcv.2.symm)]
      exact ⟨updateClusters_standFor hc, assign_eq_assignmentAt hc⟩
    · have hne : t + 1 ≠ T := by
        rintro rfl
        rcases hend with hend | hend
        · omega
        · exact hcv hend
      rw [if_neg]
      · rw [assign_eq_assignmentAt hc]
        exact ih (t + 1) _ (by omega) (by omega) (updateClusters_standFor hc)
      · intro hh
        by_cases ht0 : t = 0
        · simp [ht0] at hh
        · rw [if_neg ht0, assign_eq_assignmentAt hc] at hh
          exact hcv ⟨by omega, (Option.some.inj hh).symm⟩

/-- Some iteration is the last one. -/
theorem lastIteration_exists (cap : Nat) (d : List Int) : ∃ T, LastIteration cap d T := by
  classical
  by_cases h : ∃ T, T ≤ max cap 1 ∧ Converged d T
  · have hs := Nat.find_spec h
    exact ⟨Nat.find h, by have := hs.2.1; omega, hs.1, .inr hs.2,
      fun u hu hc => Nat.find_min h hu ⟨by have := hs.1; omega, hc⟩⟩
  · exact ⟨max cap 1, by omega, le_rfl, .inl rfl, fun u hu hc => h ⟨u, by omega, hc⟩⟩

end Sys2Proof.Machine
end

