-- ==== Sys2Proof/Laws/Edges.lean ====
section
/-! SUPPORT. Laws/Edges.lean: the edge list EDGE computes is the list of rising edges of the rule, and
its edges are sparse (40_edge_detector.md R111, R112). -/

namespace Sys2Proof.Machine

/-- Scanning from index `i` finds the edges of the window, moved up by `i`. -/
theorem edgesFrom_eq (w : List Sample) (i : Nat) :
    edgesFrom i w = ((List.range w.length).filter (fun k => IsEdge w k)).map (· + i) := by
  induction w generalizing i with
  | nil => rfl
  | cons a l ih =>
    cases l with
    | nil => rfl
    | cons b r =>
      have hsucc : ∀ k, IsEdge (a :: b :: r) (k + 1) = IsEdge (b :: r) k := by intro k; simp [IsEdge]
      have hzero : IsEdge (a :: b :: r) 0 ↔ isRising a b = true := by simp [IsEdge, isRising]
      have hf : (List.range (b :: r).length).filter
            ((fun k => decide (IsEdge (a :: b :: r) k)) ∘ fun x => x + 1)
          = (List.range (b :: r).length).filter (fun k => decide (IsEdge (b :: r) k)) :=
        List.filter_congr fun k _ => by simp only [Function.comp]; rw [decide_eq_decide, hsucc]
      have hr : List.range (a :: b :: r).length = 0 :: (List.range (b :: r).length).map (· + 1) := by
        rw [List.length_cons, List.range_succ_eq_map]
      rw [edgesFrom, hr, List.filter_cons, List.filter_map, hf, ih]
      by_cases h : isRising a b = true
      · rw [if_pos h, if_pos (decide_eq_true (hzero.mpr h))]
        simp [Function.comp_def, Nat.add_comm, Nat.add_left_comm]
      · rw [if_neg h, if_neg (by rw [decide_eq_true_eq, hzero]; exact h)]
        simp [Function.comp_def, Nat.add_comm, Nat.add_left_comm]

/-- The edge list of EDGE is the rule's. -/
theorem edgesOf_eq_risingEdges (w : List Sample) : edgesOf w = risingEdges w := by
  rw [edgesOf, edgesFrom_eq, risingEdges]; simp

/-- Edges are at least 2 apart, at most half as many as samples, and no edge is the last index; a
window that starts above zero has room for one sample more. -/
theorem edgesFrom_sparse (w : List Sample) (i : Nat) :
    (edgesFrom i w).Pairwise (fun a b => a + 2 ≤ b) ∧ 2 * (edgesFrom i w).length ≤ w.length ∧
    (∀ k ∈ edgesFrom i w, i ≤ k ∧ k + 2 ≤ i + w.length) ∧
    ∀ a r, w = a :: r → 0 < a.toInt →
      2 * (edgesFrom i w).length + 1 ≤ w.length ∧ ∀ k ∈ edgesFrom i w, i + 1 ≤ k := by
  induction w generalizing i with
  | nil => simp [edgesFrom]
  | cons a l ih =>
    cases l with
    | nil => simp [edgesFrom]
    | cons b r =>
      obtain ⟨h1, h2, h3, h4⟩ := ih (i + 1)
      rw [edgesFrom]
      simp only [List.length_cons] at *
      split
      · next h =>
        simp only [isRising, Bool.and_eq_true, decide_eq_true_eq] at h
        obtain ⟨h5, h6⟩ := h4 b r rfl h.2
        refine ⟨List.pairwise_cons.mpr ⟨fun k hk => by have := h6 k hk; omega, h1⟩, ?_, ?_, ?_⟩
        · rw [List.length_cons]; omega
        · intro k hk
          rcases List.mem_cons.mp hk with rfl | hk
          · omega
          · have := h3 k hk; omega
        · rintro a' r' he hp; cases he; omega
      · refine ⟨h1, by omega, fun k hk => by have := h3 k hk; omega, ?_⟩
        rintro a' r' he hp
        exact ⟨by omega, fun k hk => (h3 k hk).1⟩

end Sys2Proof.Machine
end

