-- ==== Sys2Proof/Laws/Encoding.lean ====
section
/-! SUPPORT. Laws/Encoding.lean: the fields of a transaction word, and what the decoder answers for
each kind of field. -/

namespace Sys2Proof

/-- A transaction word as a number: `w * 2^40 + idx * 2^32 + data` (30_encoding.md R80). -/
theorem txnWord_toNat (w : Bool) (idx : Index) (data : Word) :
    (txnWord w idx data).toNat = w.toNat * 2 ^ 40 + idx.toNat * 2 ^ 32 + data.toNat := by
  have h1 : (BitVec.ofBool w ++ idx ++ data : BitVec (1 + 8 + 32)).toNat
      = (w.toNat * 2 ^ 8 + idx.toNat) * 2 ^ 32 + data.toNat := by
    rw [BitVec.toNat_append, ← Nat.shiftLeft_add_eq_or_of_lt data.isLt, Nat.shiftLeft_eq,
      BitVec.toNat_append, ← Nat.shiftLeft_add_eq_or_of_lt idx.isLt, Nat.shiftLeft_eq,
      BitVec.toNat_ofBool]
  rw [txnWord, h1]; omega

@[simp] theorem txnIsWrite_txnWord (w : Bool) (idx : Index) (data : Word) :
    txnIsWrite (txnWord w idx data) = w := by
  have h1 := idx.isLt
  have h2 := data.isLt
  rw [txnIsWrite, ← BitVec.testBit_toNat, Nat.testBit_eq_decide_div_mod_eq, txnWord_toNat]
  cases w <;> simp <;> omega

@[simp] theorem txnIndex_txnWord (w : Bool) (idx : Index) (data : Word) :
    txnIndex (txnWord w idx data) = idx := by
  have h1 := idx.isLt
  have h2 := data.isLt
  apply BitVec.eq_of_toNat_eq
  rw [txnIndex, BitVec.extractLsb'_toNat, Nat.shiftRight_eq_div_pow, txnWord_toNat]
  cases w <;> simp <;> omega

@[simp] theorem txnData_txnWord (w : Bool) (idx : Index) (data : Word) :
    txnData (txnWord w idx data) = data := by
  have h2 := data.isLt
  apply BitVec.eq_of_toNat_eq
  rw [txnData, BitVec.extractLsb'_toNat, Nat.shiftRight_eq_div_pow, txnWord_toNat]
  omega

/-- A transaction word is made of its three fields. -/
theorem txnWord_of_fields (t : TxnWord) :
    txnWord (txnIsWrite t) (txnIndex t) (txnData t) = t := by
  have h := t.isLt
  apply BitVec.eq_of_toNat_eq
  rw [txnWord_toNat, txnIsWrite, txnIndex, txnData, BitVec.extractLsb'_toNat,
    BitVec.extractLsb'_toNat, ← BitVec.testBit_toNat, Nat.testBit_eq_decide_div_mod_eq,
    Nat.shiftRight_eq_div_pow, Nat.shiftRight_eq_div_pow]
  rcases Nat.mod_two_eq_zero_or_one (t.toNat / 2 ^ 40) with h0 | h0 <;> rw [h0] <;> simp <;> omega

/-- A word of the first eight values is its command, every other one is reserved (30_encoding.md
R82, R83). -/
theorem decodeCommand_reserved {data : Word} (h : isCommandWord data = false) :
    decodeCommand data = .cmdReserved data := by
  have h8 : 8 ≤ data.toNat := by simpa [isCommandWord] using h
  unfold decodeCommand
  split
  · next hz =>
    have hz' : data.toNat / 256 % 2 ^ 24 = 0 := by
      have := congrArg BitVec.toNat hz
      simpa [commandZero, Nat.shiftRight_eq_div_pow] using this
    have ho : (commandOp data).toNat = data.toNat % 256 := by simp [commandOp]
    have := data.isLt
    rw [ho]
    split <;> first | rfl | omega
  · rfl

/-- A read-only or unmapped index decodes to an illegal write (30_encoding.md R86). -/
theorem decodeWrite_illegal {idx : Index} (h : isWritableIndex idx = false) (data : Word) :
    decodeWrite idx data = .wrIllegal idx data := by
  have hi : idx = BitVec.ofNat 8 idx.toNat := by simp
  revert h
  unfold decodeWrite
  split <;> first
    | exact fun _ => rfl
    | (rename_i hn; rw [hn] at hi; subst hi; exact fun h => absurd h (by decide))

end Sys2Proof
end

