-- ==== Sys2Proof/Laws/PerInstr.lean ====
section
/-! SUPPORT. Laws/PerInstr.lean: for every instruction, its encoding fits the row of
spec/opcode_table.json that carries its mnemonic. -/

namespace Sys2Proof

/-- Masking field by field. -/
theorem txnWord_and (w v : Bool) (i j : Index) (d e : Word) :
    txnWord w i d &&& txnWord v j e = txnWord (w && v) (i &&& j) (d &&& e) := by
  have h : (BitVec.ofBool w ++ i ++ d) &&& (BitVec.ofBool v ++ j ++ e)
      = (BitVec.ofBool w &&& BitVec.ofBool v) ++ (i &&& j) ++ (d &&& e) := by
    rw [BitVec.and_append, BitVec.and_append]
  rw [BitVec.ofBool_and_ofBool] at h
  exact h

/-- A row that names a write and an index takes every word with them. -/
theorem fits_of_index (m : String) (idx : Index) (data : Word) :
    Row.fits ⟨m, txnWord true idx 0#32, txnWord true 0xFF#8 0#32⟩ (txnWord true idx data) = true := by
  have h : idx &&& 0xFF#8 = idx := BitVec.and_allOnes
  simp [Row.fits, txnWord_and, h]

/-- A row that names the transfer direction only takes every word with it. -/
theorem fits_of_direction (m : String) (w : Bool) (idx : Index) (data : Word) :
    Row.fits ⟨m, txnWord w 0#8 0#32, txnWord true 0#8 0#32⟩ (txnWord w idx data) = true := by
  simp [Row.fits, txnWord_and]

namespace Laws.TableRow

/-- The encoding of a well-formed instruction fits the table row of its mnemonic. -/
def Statement (i : Instr) : Prop :=
  i.wellFormed = true → ∃ r ∈ opcodeTable, r.mnemonic = mnemonicOf i ∧ r.fits (encode i) = true

/-- The row of the table at position `n` is the witness. -/
theorem of_row {i : Instr} (n : Nat) (r : Row) (hn : opcodeTable[n]? = some r)
    (hm : r.mnemonic = mnemonicOf i) (hf : r.fits (encode i) = true) : Statement i :=
  fun _ => ⟨r, List.mem_of_getElem? hn, hm, hf⟩

theorem rd (idx : Index) : Statement (.rd idx) :=
  of_row 0 _ rfl rfl (fits_of_direction "RD" false idx 0#32)
theorem wrCfg0 (data : Word) : Statement (.wrCfg0 data) :=
  of_row 1 _ rfl rfl (fits_of_index "WR_CFG0" 0x04#8 data)
theorem wrCfg1 (data : Word) : Statement (.wrCfg1 data) :=
  of_row 2 _ rfl rfl (fits_of_index "WR_CFG1" 0x05#8 data)
theorem wrCfg2 (data : Word) : Statement (.wrCfg2 data) :=
  of_row 3 _ rfl rfl (fits_of_index "WR_CFG2" 0x06#8 data)
theorem wrSampleRate (data : Word) : Statement (.wrSampleRate data) :=
  of_row 4 _ rfl rfl (fits_of_index "WR_SAMPLE_RATE" 0x07#8 data)
theorem push (data : Word) : Statement (.push data) :=
  of_row 5 _ rfl rfl (fits_of_index "PUSH" 0x08#8 data)
theorem wrFrame0 (data : Word) : Statement (.wrFrame0 data) :=
  of_row 6 _ rfl rfl (fits_of_index "WR_FRAME0" 0x12#8 data)
theorem wrFrame1 (data : Word) : Statement (.wrFrame1 data) :=
  of_row 7 _ rfl rfl (fits_of_index "WR_FRAME1" 0x13#8 data)
theorem wrFrame2 (data : Word) : Statement (.wrFrame2 data) :=
  of_row 8 _ rfl rfl (fits_of_index "WR_FRAME2" 0x14#8 data)
theorem nop : Statement .nop := of_row 9 _ rfl rfl rfl
theorem clear : Statement .clear := of_row 10 _ rfl rfl rfl
theorem edge : Statement .edge := of_row 11 _ rfl rfl rfl
theorem classify : Statement .classify := of_row 12 _ rfl rfl rfl
theorem sync : Statement .sync := of_row 13 _ rfl rfl rfl
theorem decode : Statement .decode := of_row 14 _ rfl rfl rfl
theorem run : Statement .run := of_row 15 _ rfl rfl rfl
theorem pop : Statement .pop := of_row 16 _ rfl rfl rfl
theorem cmdReserved (data : Word) : Statement (.cmdReserved data) :=
  of_row 17 _ rfl rfl (fits_of_index "CMD_RESERVED" 0x01#8 data)
theorem wrIllegal (idx : Index) (data : Word) : Statement (.wrIllegal idx data) :=
  of_row 18 _ rfl rfl (fits_of_direction "WR_ILLEGAL" true idx data)

end Laws.TableRow

end Sys2Proof
end

