-- ==== Sys2Proof/Laws/Run.lean ====
section
/-! SUPPORT. Laws/Run.lean: what SYNC and DECODE can do as whole units, and how a property carries
through the loop of RUN (44_host_commands.md R191, R193). -/

namespace Sys2Proof.Machine

/-- SYNC, once: one of four endings on the appended accumulator. -/
theorem syncUnit_cases (s : State) :
    syncUnit s = syncAbsent (appended s) ∨ (∃ i, syncUnit s = extractFrame i (appended s)) ∨
    (∃ p, syncUnit s = deferMatch p (appended s)) ∨
    ∃ i, syncUnit s = giveUpMatch i (appended s) := by
  rw [syncUnit, appendWindow_eq]
  rcases searchAcc_cases (appended s) with ⟨-, h⟩ | ⟨p, -, ⟨-, h⟩ | ⟨-, -, h⟩ | ⟨-, -, h⟩⟩ <;> rw [h]
  · exact .inl rfl
  · exact .inr (.inl ⟨_, rfl⟩)
  · exact .inr (.inr (.inl ⟨_, rfl⟩))
  · exact .inr (.inr (.inr ⟨_, rfl⟩))

/-- SYNC answers FRAME only by an extraction that drops at least 16 bits and has 80 more. -/
theorem syncUnit_frame {s : State} (h : (syncUnit s).result = 3#4) :
    ∃ i, 16 ≤ i ∧ i + 80 ≤ (afterAppend s).length ∧ syncUnit s = extractFrame i (appended s) := by
  rw [syncUnit, appendWindow_eq] at h ⊢
  rcases searchAcc_cases (appended s) with ⟨-, he⟩ | ⟨p, -, ⟨hl, he⟩ | ⟨-, -, he⟩ | ⟨-, -, he⟩⟩ <;>
    rw [he] at h ⊢
  · simp at h
  · exact ⟨p + 16, by omega, hl, rfl⟩
  · simp at h
  · simp at h

/-- DECODE leaves the accumulator, the buffers and the valid flags of the other units. -/
theorem decodeUnit_frame (s : State) :
    (decodeUnit s).acc = s.acc ∧ (decodeUnit s).blValid = s.blValid ∧
    (decodeUnit s).bl = s.bl ∧ (decodeUnit s).deferCnt = s.deferCnt ∧
    (decodeUnit s).accOvf = s.accOvf ∧ (decodeUnit s).winFrames = s.winFrames := by
  rcases decodeUnit_cases s with ⟨-, h⟩ | ⟨-, -, -, h⟩ | ⟨-, -, h⟩ <;> rw [h]
  · simp [raise]
  · simp only [acceptFrame]
    rcases pushEvent_cases (eventOf (rateCode { s with frameValid := false }) s.frame)
      { s with frameValid := false } with ⟨-, h⟩ | ⟨-, h⟩ <;> rw [h] <;> simp
  · simp [rejectFrame]

/-- A property that SYNC and DECODE keep, the loop keeps. -/
theorem syncDecodeLoop_induct {P : State → Prop} (hs : ∀ s, P s → P (syncUnit s))
    (hd : ∀ s, P s → P (decodeUnit s)) (n : Nat) {s : State} (h : P s) : P (syncDecodeLoop n s) := by
  induction n generalizing s with
  | zero => exact h
  | succ n ih =>
    rw [syncDecodeLoop]
    split
    · exact ih (hd _ (hs _ h))
    · exact hs _ h

/-- A property that EDGE establishes and the other units keep, RUN establishes. -/
theorem runUnit_induct {P : State → Prop} (s : State) (he : P (edgeUnit s))
    (hc : ∀ s, P s → P (classUnit s)) (hs : ∀ s, P s → P (syncUnit s))
    (hd : ∀ s, P s → P (decodeUnit s)) : P (runUnit s) := by
  rw [runUnit]
  simp only
  split
  · split
    · exact syncDecodeLoop_induct hs hd _ (hc _ he)
    · exact hc _ he
  · exact he

/-- The bits a search can see are at most those in ACC and BL. -/
theorem afterAppend_length_le (s : State) : (afterAppend s).length ≤ s.acc.length + s.bl.length := by
  rw [afterAppend]; split <;> simp

/-- Each round of the loop uses up at least 16 bits. -/
theorem syncDecode_uses_bits {s : State} (h : (syncUnit s).result = 3#4) :
    (afterAppend (decodeUnit (syncUnit s))).length + 16 ≤ (afterAppend s).length ∧
    96 ≤ (afterAppend s).length := by
  obtain ⟨i, h1, h2, he⟩ := syncUnit_frame h
  obtain ⟨hacc, hbl, -⟩ := decodeUnit_frame (syncUnit s)
  have hb : (syncUnit s).blValid = false := by rw [he]; rfl
  have hlen : (afterAppend (decodeUnit (syncUnit s))).length = (afterAppend s).length - i := by
    rw [afterAppend, hbl, hb, if_neg (by decide), hacc, he]
    exact List.length_drop
  omega

end Sys2Proof.Machine
end

