-- ==== Sys2Proof/Tests/Slice0.lean ====
section
/-! SUPPORT. Tests/Slice0.lean: the checks of well-formedness with terms they refuse; the
decoding of
words written out from 30_encoding.md; at most two one-step tests per instruction, expected values
from the spec's vectors (95_test_vectors.md, by their ids); and for every statement with
hypotheses a
state and operands that meet them together. -/

namespace Sys2Proof.Tests

open Sys2Proof Sys2Proof.Machine

/-- The next state of an instruction, or the state itself where it stops. -/
def after (i : Instr) (s : State) : State :=
  match exec i s with
  | .next t => t
  | _ => s

/-- Every instruction has its next state. -/
theorem exec_eq_after (i : Instr) (s : State) : exec i s = .next (after i s) := by
  obtain ⟨t, ht⟩ := exec_answers_next i s
  rw [after, ht]

/-- The value a read of `idx` returns. -/
def readBack (idx : Index) (s : State) : Option Word := (after (.rd idx) s).hostOut.getLast?

/-- Reset with a window of samples in SB. -/
def withWindow (w : List Int) : State := { State.reset with sb := w.map (BitVec.ofInt 16) }

/-- Reset with a valid edge list, CFG0 and CFG1 as given. -/
def withEdges (el : List Nat) (cfg0 cfg1 : Word) : State :=
  { State.reset with
    el := el, elValid := true, edgeCount := BitVec.ofNat 16 el.length, cfg0 := cfg0, cfg1 := cfg1 }

/-- Reset with bits in ACC and a retry count. -/
def withAcc (acc : Bits) (n : BitVec 4) : State := { State.reset with acc := acc, deferCnt := n }

/-- Reset with a candidate Frame (FRAME2, FRAME1, FRAME0) and CFG0. -/
def withFrame (frame : BitVec 80) (cfg0 : Word) : State :=
  { State.reset with frame := frame, frameValid := true, cfg0 := cfg0 }

/-- A state in the middle of its work: something in every buffer, every valid flag 1. -/
def busy : State :=
  { State.reset with
    sb := [0xFFFF#16, 1#16, 0xFFFF#16, 1#16], el := [0, 2, 6, 8, 10], elValid := true
    edgeCount := 5#16, bl := [true, false, true, true], blValid := true, pulseCount := 4#16
    pulseSum := 10#17, shortCount := 3#16, longCount := 1#16, shortPct := 75#7, longPct := 25#7
    ltcLike := true, acc := Config.syncWord, deferCnt := 1#4, frameValid := true
    evq := [0x80540000#32], result := 5#4, winFlags := 0x0000003E#32, cfg1 := 1#32 }

/-! ## Well-formedness: each check refuses an ill-formed term -/

theorem test_wellFormed_refuses_command_as_reserved :
    (Instr.cmdReserved 0x00000007#32).wellFormed = false := by decide
theorem test_wellFormed_takes_reserved_command :
    (Instr.cmdReserved 0x00000008#32).wellFormed = true := by decide
theorem test_wellFormed_takes_reserved_zero_field :
    (Instr.cmdReserved 0x00000106#32).wellFormed = true := by decide
theorem test_wellFormed_refuses_writable_index_as_illegal :
    writableIndices.all (fun i => !(Instr.wrIllegal i 0#32).wellFormed) = true := by decide
theorem test_wellFormed_takes_readOnly_index :
    (Instr.wrIllegal 0x02#8 0#32).wellFormed = true := by decide

/-! ## Decoding: words written out bit by bit, `w`, `idx`, `data` (30_encoding.md R80 to R86) -/

theorem test_decode_rd : decode (0b0#1 ++ 0b00010101#8 ++ 0#32) = .rd 0x15#8 := by decide
theorem test_decode_rd_ignores_data :
    decode (0b0#1 ++ 0b00010101#8 ++ 0xFFFFFFFF#32) = .rd 0x15#8 := by decide
theorem test_decode_wrCfg0 :
    decode (0b1#1 ++ 0b00000100#8 ++ 0x002A6002#32) = .wrCfg0 0x002A6002#32 := by decide
theorem test_decode_wrCfg1 : decode (0b1#1 ++ 0b00000101#8 ++ 90#32) = .wrCfg1 90#32 := by decide
theorem test_decode_wrCfg2 :
    decode (0b1#1 ++ 0b00000110#8 ++ 0x00005A0A#32) = .wrCfg2 0x00005A0A#32 := by decide
theorem test_decode_wrSampleRate :
    decode (0b1#1 ++ 0b00000111#8 ++ 44100#32) = .wrSampleRate 44100#32 := by decide
theorem test_decode_push :
    decode (0b1#1 ++ 0b00001000#8 ++ 0x0000FFFF#32) = .push 0x0000FFFF#32 := by decide
theorem test_decode_wrFrame0 :
    decode (0b1#1 ++ 0b00010010#8 ++ 0x05090204#32) = .wrFrame0 0x05090204#32 := by decide
theorem test_decode_wrFrame1 :
    decode (0b1#1 ++ 0b00010011#8 ++ 0x02030509#32) = .wrFrame1 0x02030509#32 := by decide
theorem test_decode_wrFrame2 :
    decode (0b1#1 ++ 0b00010100#8 ++ 0x0000BFFC#32) = .wrFrame2 0x0000BFFC#32 := by decide
theorem test_decode_nop : decode (0b1#1 ++ 0b00000001#8 ++ 0#32) = .nop := by decide
theorem test_decode_clear : decode (0b1#1 ++ 0b00000001#8 ++ 1#32) = .clear := by decide
theorem test_decode_edge : decode (0b1#1 ++ 0b00000001#8 ++ 2#32) = .edge := by decide
theorem test_decode_classify : decode (0b1#1 ++ 0b00000001#8 ++ 3#32) = .classify := by decide
theorem test_decode_sync : decode (0b1#1 ++ 0b00000001#8 ++ 4#32) = .sync := by decide
theorem test_decode_decode : decode (0b1#1 ++ 0b00000001#8 ++ 5#32) = .decode := by decide
theorem test_decode_run : decode (0b1#1 ++ 0b00000001#8 ++ 6#32) = .run := by decide
theorem test_decode_pop : decode (0b1#1 ++ 0b00000001#8 ++ 7#32) = .pop := by decide
theorem test_decode_cmdReserved :
    decode (0b1#1 ++ 0b00000001#8 ++ 0x00000106#32) = .cmdReserved 0x00000106#32 := by decide
theorem test_decode_wrIllegal :
    decode (0b1#1 ++ 0b00011011#8 ++ 5#32) = .wrIllegal 0x1B#8 5#32 := by decide

/-- A number of more than 41 bits is no transaction, and is rejected by name. -/
theorem test_decodeBits_rejects :
    decodeBits (2 ^ 41) = .error .notATransactionWord ∧
      decodeBits (2 ^ 40) ≠ .error .notATransactionWord := by
  decide
theorem test_decodeTableWord : decodeTableWord 48 0x10100000006 = some .run := by decide

/-- 30_encoding.md R98: `push -1`. -/
theorem test_expand_push : (expand (.push [-1, 1])).map encode =
    [0x1080000FFFF#41, 0x10800000001#41] := by
  decide

/-! ## One step each -/

/-- P0: the identification register. -/
theorem test_rd_id : readBack 0x00#8 State.reset = some 0x4C544331#32 := by decide
/-- P3 after `class`: PCT = 0x0000471C for 28 and 71. -/
theorem test_rd_pct :
    readBack 0x0F#8 { State.reset with shortPct := 28#7, longPct := 71#7 } = some 0x0000471C#32 := by
  decide
/-- HC-11. -/
theorem test_wrCfg0 : (after (.wrCfg0 0xFFFFFFFF#32) State.reset).cfg0 = 0x00FFFF07#32 := by decide
/-- HC-11. -/
theorem test_wrCfg1 : (after (.wrCfg1 0xFFFFFFFF#32) State.reset).cfg1 = 0x0000FFFF#32 := by decide
/-- HC-11. -/
theorem test_wrCfg2 : (after (.wrCfg2 0xFFFFFFFF#32) State.reset).cfg2 = 0x00007F7F#32 := by decide
/-- HC-11. -/
theorem test_wrSampleRate : (after (.wrSampleRate 0xFFFFFFFF#32) State.reset).sampleRate =
    0x00FFFFFF#32 := by
  decide
/-- SW-4: the upper half of the data is ignored. -/
theorem test_push_signed : (after (.push 0xFFFF8001#32) State.reset).sb.map BitVec.toInt =
    [-32767] := by decide
/-- 20_memory.md R70 (b): samples enter in the order written. -/
theorem test_push_order :
    (after (.push 1#32) (withWindow [-1])).sb = [0xFFFF#16, 1#16] := by decide
/-- P2, with 30_encoding.md R91: the frames units nibble is FRAME0[3:0]. -/
theorem test_wrFrame0 : readBack 0x12#8 (after (.wrFrame0 0x05090204#32) busy) =
    some 0x05090204#32 ∧
    nib (after (.wrFrame0 0x05090204#32) busy).frame 0 = 4 := by decide
/-- P2: FRAME_VALID is not changed. -/
theorem test_wrFrame1 : readBack 0x13#8 (after (.wrFrame1 0x02030509#32) State.reset) =
    some 0x02030509#32 ∧
    (after (.wrFrame1 0x02030509#32) State.reset).frameValid = false := by decide
/-- HC-12. -/
theorem test_wrFrame2 : readBack 0x14#8 (after (.wrFrame2 0xFFFFFFFF#32) State.reset) =
    some 0x0000FFFF#32 ∧
    readBack 0x02#8 (after (.wrFrame2 0xFFFFFFFF#32) State.reset) = some 0x00000004#32 := by decide
/-- HC-10. -/
theorem test_nop : after .nop busy = busy := by decide
/-- 44_host_commands.md R190: the configuration stays, the rest is as after reset. -/
theorem test_clear : after .clear busy = { State.reset with cfg1 := 1#32 } := by decide
/-- ED-8. -/
theorem test_edge : (after .edge (withWindow [-32768, 32767, -32768, 32767, 0, 1])).el =
    [0, 2, 4] := by decide
/-- ED-12: one edge gives NO_SIGNAL. -/
theorem test_edge_noSignal :
    let t := after .edge { withWindow [1, -1, 1] with acc := [true], deferCnt := 1#4 }
    t.result = 8#4 ∧ t.acc = [] ∧ t.deferCnt = 0#4 := by decide
/-- PC-1: EL of R120's example, adaptive strategy. -/
theorem test_classify_adaptive :
    (after .classify (withEdges [0, 2, 4, 8, 10, 14, 16, 18] 0x002A6000#32 4#32)).bl
      = [true, true, false, true, false, true, true] := by decide
/-- PC-29: the two-cluster strategy where eight of ten pulses are long. -/
theorem test_classify_cluster :
    (after .classify (withEdges [0, 4, 8, 12, 16, 20, 24, 28, 32, 34, 36] 0x002A6001#32 4#32)).bl
      = [false, false, false, false, false, false, false, false, true, true] := by decide
/-- FS-7: 5 junk bits, the sync word, 80 zero bits. -/
theorem test_sync_frame :
    let junk := [true, false, true, false, true]
    let t := after .sync (withAcc (junk ++ Config.syncWord ++ List.replicate 80 false) 0#4)
    t.result = 3#4 ∧ t.acc.length = 80 ∧ t.frameValid = true := by decide
/-- FS-14: one retry left. -/
theorem test_sync_deferred :
    let t := after .sync (withAcc (Config.syncWord ++ List.replicate 40 false) 1#4)
    t.result = 5#4 ∧ t.acc.length = 56 ∧ t.deferCnt = 2#4 := by decide
/-- TD-7 at rate code 3. -/
theorem test_decode_event :
    (after .decode (withFrame 0xBFFC0102030405060107#80 0x002A6006#32)).evq = [0x80D91711#32] :=
      by decide
/-- TD-10: frames 12 with F[10] set. -/
theorem test_decode_invalid :
    (after .decode (withFrame 0xBFFC0000000000000502#80 0x002A6006#32)).result = 11#4 := by decide
/-- P5: the window of `1011` with MIN_PULSES 1000. -/
theorem test_run_short_window :
    let t := after .run (withWindow [-1, 1, -1, 1, 1, -1, -1, 1, -1, 1, -1, 1])
    t.result = 9#4 ∧ t.pulseCount = 4#16 ∧ t.pulseSum = 10#17 ∧ t.winFlags = 0x00000202#32 :=
      by decide
/-- P5b: the same with MIN_PULSES 4. -/
theorem test_run_no_sync :
    let t := after .run { withWindow [-1, 1, -1, 1, 1, -1, -1, 1, -1, 1, -1, 1] with cfg1 := 4#32 }
    t.result = 10#4 ∧ t.acc = [true, false, true, true] ∧ t.winFlags = 0x00000406#32 := by decide
/-- 44_host_commands.md R192. -/
theorem test_pop : (after .pop { State.reset with evq := [1#32, 2#32] }).evq = [2#32] := by decide
/-- HC-7. -/
theorem test_pop_empty : readBack 0x02#8 (after .pop State.reset) = some 0x00000800#32 := by decide
/-- HC-1. -/
theorem test_cmdReserved : readBack 0x02#8 (after (.cmdReserved 8#32) State.reset) =
    some 0x00001000#32 ∧
    (after (.cmdReserved 8#32) State.reset).result = 15#4 := by decide
/-- HC-4. -/
theorem test_wrIllegal : readBack 0x02#8 (after (.wrIllegal 0x1B#8 5#32) State.reset) =
    some 0x00002000#32 := by
  decide

/-- The transaction given to the host to present is the one the next step runs. -/
theorem test_withFetchWord :
    step (State.reset.withFetchWord 48 0x10100000005) = exec .decode State.reset := rfl

/-! ## Hypotheses are met -/

theorem busy_invariant : Invariant busy where
  sb_capacity := by simp [busy, Config.sbCap]
  el_gaps := by decide
  el_range := by simp [busy, Config.sbCap]
  edge_count := by decide
  el_valid := by decide
  bl_capacity := by simp [busy, Config.blCap, Config.elCap, Config.sbCap]
  bl_valid := by decide
  pulse_count := by simp [busy, Config.blCap, Config.elCap, Config.sbCap]
  pulse_sum := by simp [busy, Config.sbCap]
  label_counts := by decide
  short_pct := by decide
  long_pct := by decide
  acc_capacity := by simp [busy, Config.syncWord, Config.accCap]
  deferred := by decide
  evq_capacity := by decide
  evq_words := by
    intro e he
    obtain rfl : e = 0x80540000#32 := by simpa [busy] using he
    decide
  result_code := by decide
  win_flags := by decide
  cfg0_reserved := by decide
  cfg1_reserved := by decide
  cfg2_reserved := by decide
  sample_rate_reserved := by decide

theorem witness_DecodeOfEncodeIsIdentity :
    (Instr.cmdReserved 8#32).wellFormed = true ∧
      (Instr.wrIllegal 0xFF#8 1#32).wellFormed = true := by decide
theorem witness_EveryWordDecodesAndWritesRoundTrip : (0x10000000000#41).getLsbD 40 = true :=
    by decide
theorem witness_ReservedCommandWordsRaiseErrCmd_op :
    field 0x00000008#32 7 0 ≥ 8 ∧ field 0x000000FF#32 7 0 ≥ 8 := by decide
theorem witness_ReservedCommandWordsRaiseErrCmd_zero :
    field 0x00000100#32 31 8 ≠ 0 ∧ field 0x80000006#32 31 8 ≠ 0 := by decide
theorem witness_IllegalWritesRaiseErrBus_readOnly :
    (0x00#8).toNat ∈ [0x00, 0x02, 0x03, 0x09, 0x0A, 0x0B, 0x0C, 0x0D, 0x0E, 0x0F, 0x10, 0x11,
      0x15, 0x16,
      0x17, 0x18, 0x19, 0x1A] := by decide
theorem witness_IllegalWritesRaiseErrBus_unmapped :
    0x1B ≤ (0x1B#8).toNat ∧ 0x1B ≤ (0xFF#8).toNat := by decide
theorem witness_StepRunsTheDecodedTransaction :
    let s : State := { busy with hostIn := [.txn 0x10100000006#41, .reset] }
    s.hostIn = .txn 0x10100000006#41 :: [.reset] ∧ decode 0x10100000006#41 = .run ∧
      Instr.run.wellFormed = true := by decide
theorem witness_ResetInputGivesResetValues :
    ({ busy with hostIn := [.reset] } : State).hostIn = .reset :: [] := by decide
theorem witness_IdleKeepsAllState : busy.hostIn = [] := by decide
theorem witness_StepConsumesExactlyOneInput :
    let s : State := { busy with hostIn := [.txn 0x10100000000#41, .reset] }
    s.hostIn = .txn 0x10100000000#41 :: [.reset] ∧ step s = .next { busy with hostIn :=
      [.reset] } :=
  ⟨rfl, rfl⟩
theorem witness_ConstantAndEmptyReads : 0x1B ≤ (0x1B#8).toNat ∧ 0x1B ≤ (0xFF#8).toNat := by decide
theorem witness_StatusReadsItsBits : 14 ≤ 14 ∧ 14 ≤ 31 := by decide
theorem witness_CountsReadTheBufferLengths : Invariant busy := busy_invariant
theorem witness_EventAndCycleReads_some : Invariant busy ∧ busy.evq = 0x80540000#32 :: [] :=
  ⟨busy_invariant, rfl⟩
theorem witness_EventAndCycleReads_none :
    Invariant { busy with evq := [] } ∧ ({ busy with evq := [] } : State).evq = [] :=
  ⟨{ busy_invariant with evq_capacity := by decide, evq_words := by simp }, rfl⟩
theorem witness_PushAppendsSignedSample_room :
    ({ State.reset with sb := List.replicate 65535 0#16 } : State).sb.length < 65536 := by
  simp only [List.length_replicate]; decide
theorem witness_PushAppendsSignedSample_full :
    65536 ≤ ({ State.reset with sb := List.replicate 65536 0#16 } : State).sb.length := by
  simp only [List.length_replicate]; decide
theorem witness_EdgeRecordsTheRisingEdges :
    2 ≤ (risingEdges (withWindow [-1, 1, -1, 1]).sb).length := by decide
theorem witness_EdgeWithoutSignalEmptiesAccumulator :
    (risingEdges (withWindow [0, 1]).sb).length < 2 := by decide
theorem witness_EdgeListIsSparse : ∃ t, exec .edge busy = .next t := exec_answers_next _ _
theorem witness_ClassWithoutEdgesRaisesErrSeq : State.reset.elValid = false := by decide
theorem witness_TooFewPulsesRejectTheWindow :
    let s := withEdges [0, 2, 6, 8, 10] 0x002A6000#32 5#32
    s.elValid = true ∧ 2 ≤ s.el.length ∧ s.el.length - 1 < field s.cfg1 15 0 := by decide
theorem witness_AdaptiveThresholdLabelsPulses :
    let s := withEdges [0, 2, 6, 8, 10] 0x002A6000#32 4#32
    s.elValid = true ∧ 2 ≤ s.el.length ∧ field s.cfg1 15 0 ≤ s.el.length - 1 ∧
      field s.cfg0 0 0 = 0 ∧
      [2, 2, 2, 4].Perm (gaps s.el) ∧ [2, 2, 2, 4].Pairwise (· ≤ · : Int → Int → Prop) := by decide
/-- The last iteration by the cap: ITER_CAP 0 acts as 1. -/
theorem witness_TwoClusterLabelsPulses_cap :
    let s := withEdges [0, 2, 6, 8, 10] 0x00206001#32 4#32
    s.elValid = true ∧ 2 ≤ s.el.length ∧ field s.cfg1 15 0 ≤ s.el.length - 1 ∧
      field s.cfg0 0 0 = 1 ∧
      LastIteration (field s.cfg0 19 16) (gaps s.el) 1 := by
  refine ⟨by decide, by decide, by decide, by decide, by decide, by decide, .inl (by decide), ?_⟩
  rintro u hu ⟨h2, -⟩; omega
/-- The last iteration by convergence. -/
theorem witness_TwoClusterLabelsPulses_converged :
    let s := withEdges [0, 2, 4, 8] 0x002A6001#32 3#32
    s.elValid = true ∧ 2 ≤ s.el.length ∧ field s.cfg1 15 0 ≤ s.el.length - 1 ∧
      field s.cfg0 0 0 = 1 ∧
      LastIteration (field s.cfg0 19 16) (gaps s.el) 2 := by
  have hg : gaps [0, 2, 4, 8] = [2, 2, 4] := by decide
  refine ⟨by decide, by decide, by decide, by decide, by decide, by decide, .inr ⟨by decide, ?_⟩,
    ?_⟩
  · show assignmentAt (gaps [0, 2, 4, 8]) 2 = assignmentAt (gaps [0, 2, 4, 8]) 1
    rw [hg]
    norm_num [assignmentAt, meansAfter, nearerA, meanOr, List.min?, List.max?, List.filter_cons]
  · rintro u hu ⟨h2, -⟩; omega
theorem witness_EqualDurationsAreAllShort :
    let s := withEdges [0, 3, 6, 9] 0x002A6001#32 3#32
    s.elValid = true ∧ 2 ≤ s.el.length ∧ field s.cfg1 15 0 ≤ s.el.length - 1 ∧
      field s.cfg0 0 0 = 1 ∧
      ∀ y ∈ gaps s.el, y = 3 := by decide
theorem witness_TrustedWindowStatistics :
    Invariant busy ∧ exec .classify busy = .next (after .classify busy) ∧
      (after .classify busy).result = 2#4 :=
  ⟨busy_invariant, exec_eq_after _ _, by decide⟩
theorem witness_SyncExtractsTheFrame :
    let s := withAcc (Config.syncWord ++ List.replicate 80 false) 0#4
    FirstSyncAt (afterAppend s) 0 ∧ 0 + 96 ≤ (afterAppend s).length := by decide
theorem witness_SyncDefersAnIncompleteMatch :
    let s := withAcc (Config.syncWord ++ List.replicate 79 false) 1#4
    FirstSyncAt (afterAppend s) 0 ∧ (afterAppend s).length < 0 + 96 ∧
      s.deferCnt.toNat < field s.cfg0 23 20 := by decide
theorem witness_SyncGivesUpAtTheRetryBound :
    let s := withAcc (Config.syncWord ++ List.replicate 79 false) 2#4
    FirstSyncAt (afterAppend s) 0 ∧ (afterAppend s).length < 0 + 96 ∧
      field s.cfg0 23 20 ≤ s.deferCnt.toNat := by decide
theorem witness_SyncKeepsFifteenBitsWithoutMatch :
    ∀ p, ¬ SyncAt (afterAppend (withAcc (List.replicate 20 false) 0#4)) p :=
  (findSync_eq_none _).mp (by decide)
theorem witness_SyncWordsNeverOverlap_suffix : 0 < 1 ∧ 1 < 16 ∧ 0 < 15 ∧ 15 < 16 := by decide
theorem witness_SyncWordsNeverOverlap :
    SyncAt (Config.syncWord ++ Config.syncWord) 0 ∧
      SyncAt (Config.syncWord ++ Config.syncWord) 16 ∧ 0 < 16 := by
  decide
theorem witness_SyncBoundsTheAccumulator_deferred :
    exec .sync (withAcc Config.syncWord 0#4) = .next (after .sync (withAcc Config.syncWord 0#4)) ∧
      (after .sync (withAcc Config.syncWord 0#4)).result = 5#4 := ⟨exec_eq_after _ _, by decide⟩
theorem witness_SyncBoundsTheAccumulator_noSync :
    exec .sync (withAcc [true] 0#4) = .next (after .sync (withAcc [true] 0#4)) ∧
      (after .sync (withAcc [true] 0#4)).result = 10#4 := ⟨exec_eq_after _ _, by decide⟩
theorem witness_DecodeWithoutFrameRaisesErrSeq : State.reset.frameValid = false := by decide
theorem witness_DecodeAppendsTheEvent_room :
    let s := withFrame 0xBFFC0203050905090204#80 0x002A6002#32
    s.frameValid = true ∧ ValidFrame (field s.cfg0 2 1) s.frame ∧ s.evq.length ≤ 64 := by decide
theorem witness_DecodeAppendsTheEvent_full :
    let s : State :=
      { withFrame 0xBFFC0203050905090204#80 0x002A6002#32 with
        evq := List.replicate 64 0x80000000#32 }
    s.frameValid = true ∧ ValidFrame (field s.cfg0 2 1) s.frame ∧ s.evq.length = 64 := by decide
theorem witness_DecodeRejectsAnInvalidFrame :
    let s := withFrame 0xBFFC0203050905090204#80 0x002A6000#32
    s.frameValid = true ∧ ¬ ValidFrame (field s.cfg0 2 1) s.frame := by decide
theorem witness_TimecodeRoundTrip :
    let st := withFrame 0xBFFC0203050905090204#80 0x002A6002#32
    st.frameValid = true ∧ 23 ≤ 23 ∧ 59 ≤ 59 ∧ 59 ≤ 59 ∧ 24 ≤ fmaxOf (field st.cfg0 2 1) ∧
      nibbleAt st.frame 0 = 24 % 10 ∧ nibbleAt st.frame 8 = 24 / 10 ∧
      nibbleAt st.frame 16 = 59 % 10 ∧ nibbleAt st.frame 24 = 59 / 10 ∧
      nibbleAt st.frame 32 = 59 % 10 ∧ nibbleAt st.frame 40 = 59 / 10 ∧
      nibbleAt st.frame 48 = 23 % 10 ∧ nibbleAt st.frame 56 = 23 / 10 := by decide
theorem witness_UnreadFrameBitsChangeNothing :
    let s := withFrame 0#80 0x002A6000#32
    (∀ o ∈ [0, 8, 16, 24, 32, 40, 48, 56], ∀ j < 4,
      (0xFFFFF0F0F0F0F0F0F0F0#80).getLsbD (o + j) = s.frame.getLsbD (o + j)) ∧
      exec .decode s = .next (after .decode s) := ⟨by decide, exec_eq_after _ _⟩
theorem witness_PopRemovesTheOldestEvent_some : busy.evq = 0x80540000#32 :: [] := by decide
theorem witness_PopRemovesTheOldestEvent_empty : State.reset.evq = [] := by decide
theorem witness_RunEqualsTheStageCommands : ∃ t, exec .run busy = .next t := exec_answers_next _ _
theorem witness_RunDecodesEveryFrameItExtracts : ∃ t, exec .run busy = .next t :=
    exec_answers_next _ _
theorem witness_RunNeverOverflowsTheAccumulator :
    Invariant busy ∧ busy.acc.length ≤ 95 ∧ ∃ t, exec .run busy = .next t :=
  ⟨busy_invariant, by decide, exec_answers_next _ _⟩
theorem witness_StickyFlagsSurviveAllButClear :
    let s : State :=
      { busy with
        sbOvf := true, accOvf := true, evOvf := true, errSeq := true, errCmd := true, errBus := true }
    Instr.run ≠ .clear ∧ (∃ t, exec .run s = .next t) ∧ s.sbOvf = true ∧ s.accOvf = true ∧
      s.evOvf = true ∧
      s.errSeq = true ∧ s.errCmd = true ∧ s.errBus = true :=
  ⟨by decide, exec_answers_next _ _, rfl, rfl, rfl, rfl, rfl, rfl⟩
/-- Each flag rises somewhere from 0. -/
theorem witness_FlagsRiseOnlyFromTheirCauses :
    (after .pop State.reset).errSeq = true ∧ (after (.cmdReserved 8#32) State.reset).errCmd = true ∧
      (after (.wrIllegal 0#8 0#32) State.reset).errBus = true ∧
      (after .decode { withFrame 0#80 0#32 with evq := List.replicate 64 0#32 }).evOvf = true := by
  decide
theorem witness_OnlyCommandsChangeResult :
    ¬ ((0x10800000001#41).getLsbD 40 = true ∧ (0x10800000001#41).extractLsb' 32 8 = 0x01#8) ∧
      exec (decode 0x10800000001#41) busy = .next (after (decode 0x10800000001#41) busy) :=
  ⟨by decide, exec_eq_after _ _⟩
theorem witness_ConfigurationChangesOnlyByItsWrites : ∃ t, exec .clear busy = .next t :=
    exec_answers_next _ _
theorem witness_SampleRateIsReadByNoRule :
    Instr.run ≠ .rd 0x07#8 ∧ (∀ d, Instr.run ≠ .wrSampleRate d) ∧ ∃ t, exec .run busy = .next t :=
  ⟨by decide, by simp, exec_answers_next _ _⟩
theorem witness_ConsumedListsAreReadByNothing_edges :
    State.reset.elValid = false ∧ ∃ t, exec .classify State.reset = .next t :=
      ⟨rfl, exec_answers_next _ _⟩
theorem witness_ConsumedListsAreReadByNothing_bits :
    State.reset.blValid = false ∧ ∃ t, exec .sync State.reset = .next t :=
      ⟨rfl, exec_answers_next _ _⟩
theorem witness_LtcLikeGatesNothing :
    Instr.sync ∈ [Instr.edge, .classify, .sync, .decode, .run, .pop] ∧
      ∃ t, exec .sync busy = .next t :=
  ⟨by decide, exec_answers_next _ _⟩
theorem witness_StepKeepsTheInvariant :
    Invariant busy ∧ ∃ t, step { busy with hostIn := [.txn 0x10100000006#41] } = .next t :=
  ⟨busy_invariant, exec_answers_next (decode 0x10100000006#41) _⟩

end Sys2Proof.Tests
end

namespace Sys2Proof.Machine

/-! ## The step of a pending transaction (00_scope.md R9) -/

/-- Of the three kinds of step in `step_cases` the first input picks one: a transaction there rules
out the idle step and the reset, and leaves its own word and the inputs behind it. -/
theorem step_of_txn {s : State} {t : TxnWord} {rest : List HostInput}
    (hin : s.hostIn = .txn t :: rest) : step s = exec (decode t) { s with hostIn := rest } := by
  obtain ⟨hidle, -⟩ | ⟨t', rest', htxn, hstep⟩ | ⟨rest', hreset, -⟩ := step_cases s
  · simp [hin] at hidle
  · obtain ⟨rfl, rfl⟩ : t = t' ∧ rest = rest' := by simpa [hin] using htxn
    exact hstep
  · simp [hin] at hreset

/-- Settles O7: `step_of_txn` with the decoded instruction named. That the instruction is well
formed is not needed, since every word decodes. -/
theorem stepRunsTheDecodedTransaction : Obligations.StepRunsTheDecodedTransaction := by
  intro s t rest i hin hdec _
  rw [← hdec]
  exact step_of_txn hin

end Sys2Proof.Machine

namespace Sys2Proof.Machine

/-! ## The invariant of 10_state.md: what each operation keeps -/

/-- Settles O59: every buffer is empty, every count 0, and the configuration words are constants. -/
theorem resetMeetsTheInvariant : Obligations.ResetMeetsTheInvariant where
  sb_capacity := Nat.zero_le _
  el_gaps := List.Pairwise.nil
  el_range := nofun
  edge_count := rfl
  el_valid := nofun
  bl_capacity := Nat.zero_le _
  bl_valid := nofun
  pulse_count := Nat.zero_le _
  pulse_sum := by decide
  label_counts := .inl ⟨rfl, rfl⟩
  short_pct := Nat.zero_le _
  long_pct := Nat.zero_le _
  acc_capacity := Nat.zero_le _
  deferred := fun h => absurd rfl h
  evq_capacity := Nat.zero_le _
  evq_words := nofun
  result_code := by decide
  win_flags := by decide
  cfg0_reserved := by decide
  cfg1_reserved := by decide
  cfg2_reserved := by decide
  sample_rate_reserved := by decide

section KeepsInvariant

variable {s : State}

/-! ### Recording -/

/-- A word with only legal flags keeps them when the flag of an outcome code joins. -/
theorem winFlags_or_winFlag {w : Word} (h : w &&& 0xFFFFF0C1#32 = 0#32) (c : Code) :
    (w ||| c.winFlag) &&& 0xFFFFF0C1#32 = 0#32 := by
  have hc : c.winFlag &&& 0xFFFFF0C1#32 = 0#32 := by cases c <;> rfl
  rw [BitVec.and_or_distrib_right, h, hc, BitVec.or_zero]

theorem recordOutcome_keeps_invariant (c : Code) (h : Invariant s) :
    Invariant (recordOutcome c s) :=
  { h with
    result_code := by rw [recordOutcome_result]; cases c <;> decide
    win_flags := winFlags_or_winFlag h.win_flags c }

theorem raise_keeps_invariant (e : ProtocolError) (h : Invariant s) : Invariant (raise e s) :=
  match e with
  | .seq => { h with result_code := by rw [raise_seq_result]; decide }
  | .cmd => { h with result_code := by rw [raise_cmd_result]; decide }
  | .bus => { h with }

theorem discardBits_keeps_invariant (h : Invariant s) : Invariant (discardBits s) :=
  { h with acc_capacity := Nat.zero_le _, deferred := fun hd => absurd rfl hd }

/-! ### EDGE -/

/-- The window is taken; EL_VALID may only promise what the new edge list holds. -/
theorem takeWindow_keeps_invariant (h : Invariant s) {v : Bool}
    (hv : v = true → 2 ≤ (edgesOf s.sb).length) : Invariant { takeWindow s with elValid := v } := by
  obtain ⟨hgaps, hlen, hrange, -⟩ := edgesFrom_sparse s.sb 0
  have hcap : s.sb.length ≤ 65536 := h.sb_capacity
  exact
    { h with
      sb_capacity := Nat.zero_le _
      el_gaps := hgaps
      el_range := fun k hk => by
        have := hrange k hk
        show k + 2 ≤ 65536
        omega
      edge_count := by
        rw [takeWindow_edgeCount, takeWindow_el, BitVec.toNat_ofNat]
        exact Nat.mod_eq_of_lt (by rw [edgesOf]; omega)
      el_valid := hv
      win_flags := BitVec.zero_and }

theorem edgeUnit_keeps_invariant (h : Invariant s) : Invariant (edgeUnit s) := by
  obtain ⟨-, he⟩ | ⟨htwo, he⟩ := edgeUnit_cases s <;> rw [he]
  · exact recordOutcome_keeps_invariant _
      (discardBits_keeps_invariant (takeWindow_keeps_invariant h nofun))
  · exact recordOutcome_keeps_invariant _ (takeWindow_keeps_invariant h fun _ => htwo)

/-! ### CLASS -/

/-- Edges from `m` on, 2 apart and below `n - 1`, are at most half as many as the places there. -/
theorem sparse_length {l : List Nat} {m n : Nat} (hmn : m ≤ n)
    (hgaps : l.Pairwise (fun a b => a + 2 ≤ b)) (hrange : ∀ i ∈ l, m ≤ i ∧ i + 2 ≤ n) :
    m + 2 * l.length ≤ n := by
  induction l generalizing m with
  | nil => simpa using hmn
  | cons a l ih =>
    obtain ⟨hfirst, hrest⟩ := List.pairwise_cons.mp hgaps
    obtain ⟨hma, han⟩ := hrange a List.mem_cons_self
    have := ih han hrest fun i hi => ⟨hfirst i hi, (hrange i (List.mem_cons_of_mem a hi)).2⟩
    rw [List.length_cons]
    omega

/-- An edge list that meets the invariant has at most `EL_CAP` edges. -/
theorem Invariant.el_length (h : Invariant s) : s.el.length ≤ 32768 := by
  have := sparse_length (Nat.zero_le Config.sbCap) h.el_gaps
    fun i hi => ⟨i.zero_le, h.el_range i hi⟩
  have hcap : Config.sbCap = 65536 := rfl
  omega

/-- The sum of the durations fits PULSE_SUM's range. -/
theorem spanOf_range {l : List Nat} {n : Nat} (hne : l ≠ [])
    (hgaps : l.Pairwise (fun a b => a + 2 ≤ b)) (hrange : ∀ i ∈ l, i + 2 ≤ n) :
    0 ≤ spanOf l ∧ spanOf l + 2 ≤ n := by
  cases l with
  | nil => exact absurd rfl hne
  | cons a l =>
    have hmem : l.getLastD a ∈ a :: l := List.getLastD_mem_cons ..
    have hlast := hrange _ hmem
    have hfirst : a ≤ l.getLastD a := by
      obtain he | hl := List.mem_cons.mp hmem
      · exact he.ge
      · exact (Nat.le_add_right a 2).trans ((List.pairwise_cons.mp hgaps).1 _ hl)
    rw [spanOf, List.getLastD_cons, List.headD_cons]
    omega

theorem pulseSum_range (h : Invariant s) (hv : s.elValid = true) :
    (BitVec.ofInt 17 (spanOf s.el)).toNat + 2 ≤ Config.sbCap := by
  have htwo := h.el_valid hv
  have hne : s.el ≠ [] := List.ne_nil_of_length_pos (by omega)
  obtain ⟨hlo, hhi⟩ := spanOf_range hne h.el_gaps h.el_range
  have hcap : Config.sbCap = 65536 := rfl
  rw [BitVec.toNat_ofInt]
  omega

theorem percent_le (c n : Nat) (h : c ≤ n) : (BitVec.ofNat 7 (100 * c / n)).toNat ≤ 100 := by
  rw [BitVec.toNat_ofNat]
  have : 100 * c / n ≤ 100 := Nat.div_le_of_le_mul (by rw [Nat.mul_comm n]; omega)
  exact (Nat.mod_le _ _).trans this

theorem rejectWindow_takeEdges_keeps_invariant (h : Invariant s) (hv : s.elValid = true) :
    Invariant (rejectWindow (takeEdges s)) := by
  have hlen := h.el_length
  refine recordOutcome_keeps_invariant _ (discardBits_keeps_invariant ?_)
  exact
    { h with
      el_valid := nofun
      bl_valid := nofun
      pulse_count := by
        rw [takeEdges_pulseCount, BitVec.toNat_ofNat, pulsesOf]
        show _ ≤ 32767
        omega
      pulse_sum := pulseSum_range h hv
      label_counts := .inl ⟨rfl, rfl⟩
      short_pct := Nat.zero_le _
      long_pct := Nat.zero_le _ }

theorem classified_keeps_invariant (h : Invariant s) (hv : s.elValid = true) {b : Bits}
    (hb : b.length = s.el.length - 1) : Invariant (classified b s) := by
  have hlen := h.el_length
  have htwo := h.el_valid hv
  have hsplit := count_true_add_count_false b
  have hpulses : (BitVec.ofNat 16 (s.el.length - 1)).toNat = s.el.length - 1 := by
    rw [BitVec.toNat_ofNat]; omega
  exact
    { h with
      el_valid := nofun
      bl_capacity := by show b.length ≤ 32767; omega
      bl_valid := fun _ =>
        ⟨List.ne_nil_of_length_pos (by show 0 < b.length; omega), hb.trans hpulses.symm⟩
      pulse_count := by show BitVec.toNat (BitVec.ofNat 16 _) ≤ 32767; omega
      pulse_sum := pulseSum_range h hv
      label_counts := .inr (by
        show (BitVec.ofNat 16 _).toNat + (BitVec.ofNat 16 _).toNat = (BitVec.ofNat 16 _).toNat
        rw [hpulses, BitVec.toNat_ofNat, BitVec.toNat_ofNat]
        omega)
      short_pct := percent_le _ _ (by omega)
      long_pct := percent_le _ _ (by omega)
      result_code := by show 2#4 ∈ legalCodes; decide
      win_flags := winFlags_or_winFlag h.win_flags .bitsOk }

theorem classUnit_keeps_invariant (h : Invariant s) : Invariant (classUnit s) := by
  obtain ⟨-, hc⟩ | ⟨hv, -, hc⟩ | ⟨hv, hn, -⟩ := classUnit_cases s
  · exact hc ▸ raise_keeps_invariant .seq h
  · exact hc ▸ rejectWindow_takeEdges_keeps_invariant h hv
  · exact classUnit_accept s hn hv ▸ classified_keeps_invariant h hv (labels_length s)

/-! ### SYNC -/

theorem afterAppend_capacity (h : Invariant s) : (afterAppend s).length ≤ Config.accCap := by
  rw [afterAppend]
  split
  · rw [List.length_drop]; omega
  · exact h.acc_capacity

/-- ACC, DEFER_CNT and what the append writes may change together, if ACC fits and a deferred match
stands at its front. -/
theorem setAcc_keeps_invariant (h : Invariant s) (ovf : Bool) {a : Bits} {d : BitVec 4}
    (ha : a.length ≤ Config.accCap) (hd : d ≠ 0#4 → SyncAt a 0 ∧ a.length ≤ 95) :
    Invariant { s with acc := a, deferCnt := d, blValid := false, accOvf := ovf } :=
  { h with acc_capacity := ha, deferred := hd, bl_valid := nofun }

/-- A match at `p` is a match at the front of what is left from `p` on. -/
theorem syncAt_drop {a : Bits} {p : Nat} (h : SyncAt a p) : SyncAt (a.drop p) 0 := by
  obtain ⟨hlen, hbits⟩ := h
  refine ⟨by rw [List.length_drop]; omega, fun j hj => ?_⟩
  rw [List.getElem?_drop, Nat.zero_add]
  exact hbits j hj

theorem syncUnit_keeps_invariant (h : Invariant s) : Invariant (syncUnit s) := by
  have hcap := afterAppend_capacity h
  have hdrop (k : Nat) : ((afterAppend s).drop k).length ≤ Config.accCap := by
    rw [List.length_drop]; omega
  have hnone {a : Bits} : (0#4 : BitVec 4) ≠ 0#4 → SyncAt a 0 ∧ a.length ≤ 95 := fun hd =>
    absurd rfl hd
  rw [syncUnit, appendWindow_eq]
  obtain ⟨-, hs⟩ | ⟨p, ⟨hat, -⟩, ⟨-, hs⟩ | ⟨hshort, -, hs⟩ | ⟨-, -, hs⟩⟩ :=
    searchAcc_cases (appended s) <;> rw [hs]
  · exact recordOutcome_keeps_invariant .noSyncFound (setAcc_keeps_invariant h _ (hdrop _) hnone)
  · have hleft := setAcc_keeps_invariant h (appended s).accOvf (hdrop (p + 16)) hnone
    exact recordOutcome_keeps_invariant .frame { hleft with }
  · refine recordOutcome_keeps_invariant .deferred
      (setAcc_keeps_invariant h _ (hdrop _) fun _ => ⟨syncAt_drop hat, ?_⟩)
    show ((afterAppend s).drop p).length ≤ 95
    replace hshort : (afterAppend s).length < p + 96 := hshort
    rw [List.length_drop]
    omega
  · exact recordOutcome_keeps_invariant .noSyncFound (setAcc_keeps_invariant h _ (hdrop _) hnone)

/-! ### DECODE and POP -/

/-- The event of a valid frame has the fields of an event word. -/
theorem isEventWord_eventNumber {rate : Nat} (hrate : rate < 4) {f : BitVec 80}
    (h : ValidFrame rate f) : IsEventWord (BitVec.ofNat 32 (eventNumber rate f)) := by
  obtain ⟨-, hhours, hminutes, hseconds, hframes⟩ := h
  have hfmax : fmaxOf rate ≤ 29 := by unfold fmaxOf; interval_cases rate <;> decide
  have hfits : eventNumber rate f < 2 ^ 32 := by unfold eventNumber; omega
  have hfield (hi lo : Nat) : field (BitVec.ofNat 32 (eventNumber rate f)) hi lo
      = eventNumber rate f / 2 ^ lo % 2 ^ (hi + 1 - lo) := by
    rw [field, BitVec.toNat_ofNat, Nat.mod_eq_of_lt hfits]
  have hcode : field (BitVec.ofNat 32 (eventNumber rate f)) 23 22 = rate := by
    rw [hfield]; unfold eventNumber; omega
  simp only [IsEventWord, hcode, hfield]
  unfold eventNumber
  refine ⟨?_, ?_, ?_, ?_, ?_, ?_⟩ <;> omega

theorem pushEvent_keeps_invariant (h : Invariant s) {e : Word} (he : IsEventWord e) :
    Invariant (pushEvent e s) := by
  have hcap : s.evq.length ≤ 64 := h.evq_capacity
  have hwords {q : List Word} (hq : ∀ w ∈ q, w ∈ s.evq) : ∀ w ∈ q ++ [e], IsEventWord w := by
    intro w hw
    obtain hw | hw := List.mem_append.mp hw
    · exact h.evq_words w (hq w hw)
    · exact List.mem_singleton.mp hw ▸ he
  obtain ⟨-, hp⟩ | ⟨hroom, hp⟩ := pushEvent_cases e s <;> rw [hp]
  · exact
      { h with
        evq_capacity := by
          simp only [List.length_append, List.length_tail, List.length_singleton]
          show _ ≤ 64
          omega
        evq_words := hwords fun _ => List.mem_of_mem_tail }
  · exact
      { h with
        evq_capacity := by
          replace hroom : s.evq.length ≠ 64 := hroom
          rw [List.length_append, List.length_singleton]
          show _ ≤ 64
          omega
        evq_words := hwords fun _ => id }

theorem decodeUnit_keeps_invariant (h : Invariant s) : Invariant (decodeUnit s) := by
  obtain ⟨-, hd⟩ | ⟨-, hdigits, hrange, hd⟩ | ⟨-, -, hd⟩ := decodeUnit_cases s <;> rw [hd]
  · exact raise_keeps_invariant .seq h
  · have hvalid : ValidFrame (rateCode s).toNat s.frame :=
      (checks_iff_validFrame _ _).mp (by rw [hdigits, hrange]; rfl)
    have hevent : IsEventWord (eventOf (rateCode s) s.frame) := by
      rw [eventOf_eq]
      exact isEventWord_eventNumber (rateCode s).isLt hvalid
    have htaken : Invariant { s with frameValid := false } := { h with }
    exact recordOutcome_keeps_invariant .event { pushEvent_keeps_invariant htaken hevent with }
  · exact recordOutcome_keeps_invariant .invalidFrame { h with }

theorem popEvent_keeps_invariant (h : Invariant s) {e : Word} {rest : List Word}
    (hq : s.evq = e :: rest) : Invariant { s with evq := rest } :=
  { h with
    evq_capacity := by
      have := h.evq_capacity
      rw [hq, List.length_cons] at this
      exact (Nat.le_succ _).trans this
    evq_words := fun w hw => h.evq_words w (hq ▸ List.mem_cons_of_mem e hw) }

/-! ### Every transaction and every step -/

theorem runUnit_keeps_invariant (h : Invariant s) : Invariant (runUnit s) :=
  runUnit_induct s (edgeUnit_keeps_invariant h) (fun _ => classUnit_keeps_invariant)
    (fun _ => syncUnit_keeps_invariant) fun _ => decodeUnit_keeps_invariant

/-- CLEAR gives the reset values to all but the configuration, which it keeps. -/
theorem clearAll_keeps_invariant (h : Invariant s) : Invariant (clearAll s) :=
  { resetMeetsTheInvariant with
    cfg0_reserved := h.cfg0_reserved
    cfg1_reserved := h.cfg1_reserved
    cfg2_reserved := h.cfg2_reserved
    sample_rate_reserved := h.sample_rate_reserved }

/-- What is written through a mask has no bit outside it. -/
theorem masked_reserved (d : Word) {mask reserved : Word} (h : mask &&& reserved = 0#32) :
    d &&& mask &&& reserved = 0#32 := by
  rw [BitVec.and_assoc, h, BitVec.and_zero]

theorem exec_keeps_invariant {i : Instr} {t : State} (h : Invariant s) (he : exec i s = .next t) :
    Invariant t := by
  cases i with
  | push d =>
    simp only [exec, execPush] at he
    split at he <;> cases he
    · next hroom =>
      exact { h with sb_capacity := by rw [List.length_append, List.length_singleton]; exact hroom }
    · exact { h with }
  | pop =>
    simp only [exec, execPop] at he
    split at he <;> cases he
    · exact raise_keeps_invariant .seq h
    · next hq => exact popEvent_keeps_invariant h hq
  | wrCfg0 d => cases he; exact { h with cfg0_reserved := masked_reserved d (by decide) }
  | wrCfg1 d => cases he; exact { h with cfg1_reserved := masked_reserved d (by decide) }
  | wrCfg2 d => cases he; exact { h with cfg2_reserved := masked_reserved d (by decide) }
  | wrSampleRate d =>
    cases he; exact { h with sample_rate_reserved := masked_reserved d (by decide) }
  | clear => cases he; exact clearAll_keeps_invariant h
  | edge => cases he; exact edgeUnit_keeps_invariant h
  | classify => cases he; exact classUnit_keeps_invariant h
  | sync => cases he; exact syncUnit_keeps_invariant h
  | decode => cases he; exact decodeUnit_keeps_invariant h
  | run => cases he; exact runUnit_keeps_invariant h
  | cmdReserved _ => cases he; exact raise_keeps_invariant .cmd h
  | wrIllegal _ _ => cases he; exact raise_keeps_invariant .bus h
  | _ => cases he; exact { h with }

end KeepsInvariant

/-- Settles O58: an idle step changes nothing, a reset gives the reset values, and a transaction
keeps the invariant by `exec_keeps_invariant`. -/
theorem stepKeepsTheInvariant : Obligations.StepKeepsTheInvariant := by
  intro s t h hstep
  obtain ⟨-, he⟩ | ⟨w, rest, -, he⟩ | ⟨rest, -, he⟩ := step_cases s <;> rw [he] at hstep
  · cases hstep; exact h
  · exact exec_keeps_invariant (s := { s with hostIn := rest }) { h with } hstep
  · cases hstep; exact { resetMeetsTheInvariant with }

/-! ## Reads (10_state.md R30 to R52) -/

/-- A read answers `memRead` and nothing else happens. -/
theorem readsAs_iff {s : State} {idx : Index} {v : Word} : ReadsAs s idx v ↔ memRead s idx = v := by
  simp only [ReadsAs, exec, execRd, answer, Host.Outcome.next.injEq, State.mk.injEq,
    List.append_cancel_left_eq, List.cons.injEq, and_true, true_and]

/-- A read of a mapped index answers the value of its register. -/
theorem readsAs_of_regAt {s : State} {idx : Index} {v : Word} (q : Reg) (hq : regAt idx = some q)
    (hv : regValue s q = v) : ReadsAs s idx v := by
  rw [readsAs_iff, memRead, hq]
  exact hv

/-- Settles O11: one state and 256 indices, so the register map is evaluated at each of them. -/
theorem resetReadbackOfEveryIndex : Obligations.ResetReadbackOfEveryIndex := by
  intro idx
  rw [readsAs_iff]
  revert idx
  decide

theorem flagAt_getLsbD (b : Bool) {n : Nat} (hn : n < 32) (k : Nat) :
    (flagAt b n).getLsbD k = (b && decide (k = n)) := by
  cases b with
  | false => simp [flagAt]
  | true =>
    rw [flagAt, if_pos rfl, ← BitVec.twoPow_eq, BitVec.getLsbD_twoPow]
    simp [hn, eq_comm]

/-- Bit `k` of STATUS is the flag that has its place there. -/
theorem statusWord_getLsbD (s : State) (k : Nat) : (statusWord s).getLsbD k =
    (s.elValid && decide (k = 0) || s.blValid && decide (k = 1) || s.frameValid && decide (k = 2)
      || !s.evq.isEmpty && decide (k = 3) || s.ltcLike && decide (k = 4)
      || s.sbOvf && decide (k = 8) || s.accOvf && decide (k = 9) || s.evOvf && decide (k = 10)
      || s.errSeq && decide (k = 11) || s.errCmd && decide (k = 12)
      || s.errBus && decide (k = 13)) := by
  simp only [statusWord, BitVec.getLsbD_or]
  repeat rw [flagAt_getLsbD _ (by decide)]

/-- Settles O14: `statusWord_getLsbD` at each place, and beyond the last flag. -/
theorem statusReadsItsBits : Obligations.StatusReadsItsBits := by
  intro s
  have hhigh (n : Nat) (hn : 14 ≤ n) : (statusWord s).getLsbD n = false := by
    have hne {k : Nat} (hk : k < 14) : n ≠ k := by omega
    simp [statusWord_getLsbD, hne]
  refine ⟨statusWord s, readsAs_of_regAt .status rfl rfl, ?_⟩
  simp only [statusWord_getLsbD] at hhigh ⊢
  simpa [List.length_pos_iff] using hhigh

/-- A count that fits its register's `w` bits reads as itself. -/
theorem setWidth_ofNat_of_lt {w n : Nat} (hn : n < 2 ^ w) :
    (BitVec.ofNat w n).setWidth 32 = BitVec.ofNat 32 n := by
  apply BitVec.eq_of_toNat_eq
  simp [Nat.mod_eq_of_lt hn]

/-- Settles O15: by the invariant every length fits its register, and EDGE_COUNT is the length of
EL. -/
theorem countsReadTheBufferLengths : Obligations.CountsReadTheBufferLengths := by
  intro s h
  have hsb : s.sb.length ≤ 65536 := h.sb_capacity
  have hacc : s.acc.length ≤ 65536 := h.acc_capacity
  have hevq : s.evq.length ≤ 64 := h.evq_capacity
  exact ⟨readsAs_of_regAt .wptr rfl (setWidth_ofNat_of_lt (by omega)),
    readsAs_of_regAt .edgeCount rfl (h.edge_count ▸ (BitVec.ofNat_toNat 32 s.edgeCount).symm),
    readsAs_of_regAt .accLen rfl (setWidth_ofNat_of_lt (by omega)),
    readsAs_of_regAt .eventCount rfl (setWidth_ofNat_of_lt (by omega))⟩

/-- SHORT_PCT and LONG_PCT side by side in PCT are one number. -/
theorem pct_eq (a b : BitVec 7) : (b.setWidth 32 <<< 8) ||| a.setWidth 32
    = BitVec.ofNat 32 (a.toNat + 256 * b.toNat) := by
  apply BitVec.eq_of_toNat_eq
  have ha := a.isLt
  have hb := b.isLt
  rw [BitVec.toNat_or, BitVec.toNat_shiftLeft, BitVec.toNat_setWidth, BitVec.toNat_setWidth,
    BitVec.toNat_ofNat, Nat.shiftLeft_eq, Nat.mod_eq_of_lt (a := a.toNat) (by omega),
    Nat.mod_eq_of_lt (a := b.toNat) (by omega), Nat.mod_eq_of_lt (by omega), Nat.mul_comm,
    ← Nat.two_pow_add_eq_or_of_lt (by omega)]
  omega

/-- Settles O16: each register is its field zero-extended; PCT is two fields. -/
theorem statisticsReadTheirFields : Obligations.StatisticsReadTheirFields := by
  intro s
  have zext {w : Nat} (x : BitVec w) : x.setWidth 32 = BitVec.ofNat 32 x.toNat :=
    (BitVec.ofNat_toNat 32 x).symm
  exact ⟨readsAs_of_regAt .result rfl (zext _), readsAs_of_regAt .pulseCount rfl (zext _),
    readsAs_of_regAt .pulseSum rfl (zext _), readsAs_of_regAt .shortCount rfl (zext _),
    readsAs_of_regAt .longCount rfl (zext _), readsAs_of_regAt .pct rfl (pct_eq _ _),
    readsAs_of_regAt .deferCnt rfl (zext _)⟩

/-- Settles O17: each register is a slice of FRAME, so its bit `j` is a bit of FRAME. -/
theorem frameRegistersReadTheFrameBits : Obligations.FrameRegistersReadTheFrameBits := by
  intro s
  refine ⟨_, _, _, readsAs_of_regAt .frame0 rfl rfl, readsAs_of_regAt .frame1 rfl rfl,
    readsAs_of_regAt .frame2 rfl rfl, fun j hj => ?_, fun j hj => ?_, fun j hj => ?_,
    fun j hj => ?_⟩ <;> simp only [regValue, BitVec.getLsbD_extractLsb', BitVec.getLsbD_setWidth]
  · simp [hj]
  · simp [hj]
  · have : j < 32 := by omega
    simp [hj, this]
  · have : ¬ j < 16 := by omega
    simp [this]

/-- An event word is told from an empty queue's 0 by its bit 31. -/
theorem getLsbD_of_isEventWord {e : Word} (he : IsEventWord e) : e.getLsbD 31 = true := by
  obtain ⟨htop, -⟩ := he
  rw [← BitVec.testBit_toNat, Nat.testBit_eq_decide_div_mod_eq]
  exact decide_eq_true htop

/-- Settles O18: by the invariant the head of a queue that is not empty is an event word. -/
theorem eventAndCycleReads : Obligations.EventAndCycleReads := by
  intro s h
  refine ⟨s.evq.headD 0#32, readsAs_of_regAt .eventHead rfl rfl, ?_, ?_, ?_,
    readsAs_of_regAt .winFlags rfl rfl, readsAs_of_regAt .winFrames rfl rfl,
    readsAs_of_regAt .winEvents rfl rfl, readsAs_of_regAt .winInvalid rfl rfl⟩
  · intro e rest hq; rw [hq]; rfl
  · intro hq; rw [hq]; rfl
  · cases hq : s.evq with
    | nil => decide
    | cons e rest =>
      have hmem : e ∈ s.evq := hq ▸ List.mem_cons_self
      exact iff_of_true (getLsbD_of_isEventWord (h.evq_words e hmem)) (List.cons_ne_nil e rest)

/-! ## Sticky flags (10_state.md R33) -/

/-- Every sticky flag that is 1 in `s` is 1 in `t`. -/
structure FlagsStay (s t : State) : Prop where
  sbOvf : s.sbOvf = true → t.sbOvf = true
  accOvf : s.accOvf = true → t.accOvf = true
  evOvf : s.evOvf = true → t.evOvf = true
  errSeq : s.errSeq = true → t.errSeq = true
  errCmd : s.errCmd = true → t.errCmd = true
  errBus : s.errBus = true → t.errBus = true

section Sticky

variable {s t u : State}

theorem FlagsStay.refl (s : State) : FlagsStay s s := ⟨id, id, id, id, id, id⟩

theorem FlagsStay.trans (h : FlagsStay s t) (h' : FlagsStay t u) : FlagsStay s u :=
  ⟨h'.sbOvf ∘ h.sbOvf, h'.accOvf ∘ h.accOvf, h'.evOvf ∘ h.evOvf, h'.errSeq ∘ h.errSeq,
    h'.errCmd ∘ h.errCmd, h'.errBus ∘ h.errBus⟩

theorem raise_flagsStay (e : ProtocolError) : FlagsStay s (raise e s) :=
  match e with
  | .seq => { FlagsStay.refl s with errSeq := fun _ => rfl }
  | .cmd => { FlagsStay.refl s with errCmd := fun _ => rfl }
  | .bus => { FlagsStay.refl s with errBus := fun _ => rfl }

theorem pushEvent_flagsStay (e : Word) : FlagsStay s (pushEvent e s) := by
  obtain ⟨-, h⟩ | ⟨-, h⟩ := pushEvent_cases e s <;> rw [h]
  · exact { FlagsStay.refl s with evOvf := fun _ => rfl }
  · exact { FlagsStay.refl s with }

theorem edgeUnit_flagsStay : FlagsStay s (edgeUnit s) := by
  obtain ⟨-, h⟩ | ⟨-, h⟩ := edgeUnit_cases s <;> rw [h] <;> exact { FlagsStay.refl s with }

theorem classUnit_flagsStay : FlagsStay s (classUnit s) := by
  obtain ⟨-, h⟩ | ⟨-, -, h⟩ | ⟨-, -, h⟩ := classUnit_cases s <;> rw [h]
  · exact raise_flagsStay .seq
  · exact { FlagsStay.refl s with }
  · exact { FlagsStay.refl s with }

/-- The append of SYNC may only set ACC_OVF, and the search sets nothing. -/
theorem syncUnit_flagsStay : FlagsStay s (syncUnit s) := by
  have happend : FlagsStay s (appended s) :=
    { FlagsStay.refl s with accOvf := fun h => by simp [appended, h] }
  obtain h | ⟨_, h⟩ | ⟨_, h⟩ | ⟨_, h⟩ := syncUnit_cases s <;> rw [h] <;> exact { happend with }

theorem decodeUnit_flagsStay : FlagsStay s (decodeUnit s) := by
  obtain ⟨-, h⟩ | ⟨-, -, -, h⟩ | ⟨-, -, h⟩ := decodeUnit_cases s <;> rw [h]
  · exact raise_flagsStay .seq
  · exact { pushEvent_flagsStay (s := { s with frameValid := false }) _ with }
  · exact { FlagsStay.refl s with }

theorem runUnit_flagsStay : FlagsStay s (runUnit s) :=
  runUnit_induct s edgeUnit_flagsStay (fun _ h => h.trans classUnit_flagsStay)
    (fun _ h => h.trans syncUnit_flagsStay) fun _ h => h.trans decodeUnit_flagsStay

theorem exec_flagsStay {i : Instr} (hi : i ≠ .clear) (he : exec i s = .next t) : FlagsStay s t := by
  cases i with
  | clear => exact absurd rfl hi
  | push _ =>
    simp only [exec, execPush] at he
    split at he <;> cases he
    · exact { FlagsStay.refl s with }
    · exact { FlagsStay.refl s with sbOvf := fun _ => rfl }
  | pop =>
    simp only [exec, execPop] at he
    split at he <;> cases he
    · exact raise_flagsStay .seq
    · exact { FlagsStay.refl s with }
  | edge => cases he; exact edgeUnit_flagsStay
  | classify => cases he; exact classUnit_flagsStay
  | sync => cases he; exact syncUnit_flagsStay
  | decode => cases he; exact decodeUnit_flagsStay
  | run => cases he; exact runUnit_flagsStay
  | cmdReserved _ => cases he; exact raise_flagsStay .cmd
  | wrIllegal _ _ => cases he; exact raise_flagsStay .bus
  | _ => cases he; exact { FlagsStay.refl s with }

end Sticky

/-- Settles O51: the six fields of `exec_flagsStay`. -/
theorem stickyFlagsSurviveAllButClear : Obligations.StickyFlagsSurviveAllButClear := by
  intro i s t hi he
  have h := exec_flagsStay hi he
  exact ⟨h.sbOvf, h.accOvf, h.evOvf, h.errSeq, h.errCmd, h.errBus⟩

/-! ## What no rule reads (10_state.md R22, R23, R38) -/

/-! ### The branches of CLASS and of an accepted frame, each as an equation -/

theorem classUnit_of_not_valid {s : State} (hv : s.elValid = false) :
    classUnit s = raise .seq s := by
  rw [classUnit, hv, if_neg Bool.false_ne_true]

theorem classUnit_of_few {s : State} (hv : s.elValid = true)
    (hn : pulsesOf s.el < (minPulses s).toNat) :
    classUnit s = rejectWindow (takeEdges s) := by
  rw [classUnit, if_pos hv, if_pos hn]

theorem classUnit_of_enough {s : State} (hv : s.elValid = true)
    (hn : (minPulses s).toNat ≤ pulsesOf s.el) :
    classUnit s = acceptWindow (labels s) (pulsesOf s.el) (takeEdges s) := by
  rw [classUnit, if_pos hv, if_neg hn.not_gt]

theorem acceptFrame_eq (s : State) : acceptFrame s = recordOutcome .event
    { pushEvent (eventOf (rateCode s) s.frame) s with winEvents := s.winEvents + 1#32 } := by
  simp only [acceptFrame, pushEvent_winEvents]

/-! ### Changing EL, BL and SAMPLE_RATE -/

/-- EL, BL and SAMPLE_RATE rewritten, everything else as in `s`. -/
def mapUnread (f : List Nat → List Nat) (g : Bits → Bits) (k : Word → Word) (s : State) : State :=
  { s with el := f s.el, bl := g s.bl, sampleRate := k s.sampleRate }

section Unread

variable (f : List Nat → List Nat) (g : Bits → Bits) (k : Word → Word) (s : State)

@[simp] theorem mapUnread_result : (mapUnread f g k s).result = s.result := rfl
@[simp] theorem mapUnread_acc : (mapUnread f g k s).acc = s.acc := rfl
@[simp] theorem mapUnread_evq : (mapUnread f g k s).evq = s.evq := rfl

/-- EDGE writes EL and reads none of the three. -/
theorem edgeUnit_mapUnread : edgeUnit (mapUnread f g k s) = mapUnread id g k (edgeUnit s) := by
  rw [edgeUnit, edgeUnit, apply_ite (mapUnread id g k)]
  rfl

theorem pushEvent_mapUnread (e : Word) :
    pushEvent e (mapUnread f g k s) = mapUnread f g k (pushEvent e s) := by
  rw [pushEvent, pushEvent, apply_ite (mapUnread f g k)]
  rfl

theorem acceptFrame_mapUnread :
    acceptFrame (mapUnread f g k s) = mapUnread f g k (acceptFrame s) := by
  rw [acceptFrame_eq, acceptFrame_eq, pushEvent_mapUnread]
  rfl

/-- DECODE reads and writes none of the three. -/
theorem decodeUnit_mapUnread : decodeUnit (mapUnread f g k s) = mapUnread f g k (decodeUnit s) := by
  simp only [decodeUnit, apply_ite (mapUnread f g k), ← acceptFrame_mapUnread]
  rfl

theorem searchAcc_mapUnread : searchAcc (mapUnread f g k s) = mapUnread f g k (searchAcc s) := by
  rw [searchAcc, searchAcc, mapUnread_acc]
  cases findSync s.acc with
  | none => rfl
  | some p =>
    simp only [apply_ite (mapUnread f g k)]
    rfl

/-- SYNC reads of the three only a BL that is valid. -/
theorem syncUnit_mapUnread (hbl : g = id ∨ s.blValid = false) :
    syncUnit (mapUnread f g k s) = mapUnread f g k (syncUnit s) := by
  have happend : appended (mapUnread f g k s) = mapUnread f g k (appended s) := by
    obtain rfl | hv := hbl
    · rfl
    · simp [appended, afterAppend, mapUnread, hv]
  rw [syncUnit, syncUnit, appendWindow_eq, appendWindow_eq, happend, searchAcc_mapUnread]

/-- CLASS reads neither BL nor SAMPLE_RATE; it writes BL exactly when it answers BITS_OK. -/
theorem classUnit_mapUnread_bl :
    ((classUnit s).result = 2#4 ∧
      classUnit (mapUnread id g k s) = mapUnread id id k (classUnit s)) ∨
    ((classUnit s).result ≠ 2#4 ∧
      classUnit (mapUnread id g k s) = mapUnread id g k (classUnit s)) := by
  obtain ⟨hv, hc⟩ | ⟨hv, hn, hc⟩ | ⟨hv, hn, hc⟩ := classUnit_cases s <;> rw [hc]
  · exact .inr ⟨by simp, classUnit_of_not_valid hv⟩
  · exact .inr ⟨by simp, classUnit_of_few hv hn⟩
  · exact .inl ⟨by simp, classUnit_of_enough hv hn⟩

/-- Without an edge list CLASS reads none of the three. -/
theorem classUnit_mapUnread_of_not_valid (hv : s.elValid = false) :
    classUnit (mapUnread f g k s) = mapUnread f g k (classUnit s) := by
  rw [classUnit_of_not_valid hv]
  exact classUnit_of_not_valid hv

/-- SYNC and DECODE commute with a change of SAMPLE_RATE, so the loop of RUN does. -/
theorem syncDecodeLoop_mapUnread (n : Nat) :
    syncDecodeLoop n (mapUnread id id k s) = mapUnread id id k (syncDecodeLoop n s) := by
  induction n generalizing s with
  | zero => rfl
  | succ n ih =>
    simp only [syncDecodeLoop, syncUnit_mapUnread id id k s (.inl rfl), decodeUnit_mapUnread, ih,
      apply_ite (mapUnread id id k)]
    rfl

/-- RUN starts with EDGE, which writes EL, and reaches SYNC only past a CLASS that writes BL. -/
theorem runUnit_mapUnread :
    runUnit (mapUnread f g k s) = mapUnread id id k (runUnit s) ∨
    runUnit (mapUnread f g k s) = mapUnread id g k (runUnit s) := by
  simp only [runUnit, edgeUnit_mapUnread, mapUnread_result]
  generalize edgeUnit s = e
  by_cases he : e.result = Code.edgesOk.value
  · simp only [if_pos he]
    obtain ⟨hok, hc⟩ | ⟨hno, hc⟩ := classUnit_mapUnread_bl g k e
    · left
      rw [hc, mapUnread_result, value_bitsOk, if_pos hok, if_pos hok]
      exact syncDecodeLoop_mapUnread k _ _
    · right
      rw [hc, mapUnread_result, value_bitsOk, if_neg hno, if_neg hno]
  · right
    rw [if_neg he, if_neg he]

end Unread

/-- Index 0x07 is the only one of SAMPLE_RATE (10_state.md R30). -/
theorem regAt_eq_sampleRate : ∀ idx : Index, regAt idx = some .sampleRate → idx = 0x07#8 := by
  decide

/-- A read sees of the three only SAMPLE_RATE, at its own index. -/
theorem memRead_mapUnread (f : List Nat → List Nat) (g : Bits → Bits) {k : Word → Word} (s : State)
    {idx : Index} (hk : k = id ∨ idx ≠ 0x07#8) :
    memRead (mapUnread f g k s) idx = memRead s idx := by
  rw [memRead, memRead]
  cases hq : regAt idx with
  | none => rfl
  | some q =>
    cases q with
    | sampleRate =>
      obtain rfl | hne := hk
      · rfl
      · exact absurd (regAt_eq_sampleRate idx hq) hne
    | _ => rfl

/-- What a transaction does while EL, BL or SAMPLE_RATE holds something else that it does not read:
the same, and the difference stays within them or is overwritten. -/
theorem exec_mapUnread {f : List Nat → List Nat} {g : Bits → Bits} {k : Word → Word}
    {i : Instr} {s t : State} (hel : f = id ∨ s.elValid = false)
    (hbl : g = id ∨ s.blValid = false)
    (hrate : k = id ∨ (i ≠ .rd 0x07#8 ∧ ∀ d, i ≠ .wrSampleRate d)) (he : exec i s = .next t) :
    ∃ f' g', (f' = f ∨ f' = id) ∧ (g' = g ∨ g' = id) ∧
      exec i (mapUnread f g k s) = .next (mapUnread f' g' k t) := by
  cases i with
  | rd idx =>
    cases he
    have hread : memRead (mapUnread f g k s) idx = memRead s idx :=
      memRead_mapUnread f g s (hrate.imp_right fun h hidx => h.1 (hidx ▸ rfl))
    exact ⟨f, g, .inl rfl, .inl rfl, by rw [exec, execRd, hread]; rfl⟩
  | wrSampleRate d =>
    cases he
    obtain rfl | ⟨-, h⟩ := hrate
    · exact ⟨f, g, .inl rfl, .inl rfl, rfl⟩
    · exact absurd rfl (h d)
  | push d =>
    refine ⟨f, g, .inl rfl, .inl rfl, ?_⟩
    simp only [exec, execPush] at he ⊢
    split at he <;> cases he
    · next hroom => exact if_pos hroom
    · next hfull => exact if_neg hfull
  | pop =>
    refine ⟨f, g, .inl rfl, .inl rfl, ?_⟩
    simp only [exec, execPop, mapUnread_evq] at he ⊢
    split at he <;> cases he <;> rfl
  | clear => cases he; exact ⟨id, id, .inr rfl, .inr rfl, rfl⟩
  | edge =>
    cases he
    exact ⟨id, g, .inr rfl, .inl rfl, congrArg _ (edgeUnit_mapUnread f g k s)⟩
  | classify =>
    cases he
    obtain rfl | hv := hel
    · obtain ⟨-, hc⟩ | ⟨-, hc⟩ := classUnit_mapUnread_bl g k s
      · exact ⟨id, id, .inl rfl, .inr rfl, congrArg _ hc⟩
      · exact ⟨id, g, .inl rfl, .inl rfl, congrArg _ hc⟩
    · exact ⟨f, g, .inl rfl, .inl rfl, congrArg _ (classUnit_mapUnread_of_not_valid f g k s hv)⟩
  | sync =>
    cases he
    exact ⟨f, g, .inl rfl, .inl rfl, congrArg _ (syncUnit_mapUnread f g k s hbl)⟩
  | decode =>
    cases he
    exact ⟨f, g, .inl rfl, .inl rfl, congrArg _ (decodeUnit_mapUnread f g k s)⟩
  | run =>
    cases he
    obtain hr | hr := runUnit_mapUnread f g k s
    · exact ⟨id, id, .inr rfl, .inr rfl, congrArg _ hr⟩
    · exact ⟨id, g, .inr rfl, .inl rfl, congrArg _ hr⟩
  | _ => cases he; exact ⟨f, g, .inl rfl, .inl rfl, rfl⟩

/-- Settles O55: `exec_mapUnread` with EL and BL left alone. -/
theorem sampleRateIsReadByNoRule : Obligations.SampleRateIsReadByNoRule := by
  intro i s t r hrd hwr he
  obtain ⟨f', g', hf, hg, hu⟩ := exec_mapUnread (k := fun _ => r) (.inl rfl) (.inl rfl)
    (.inr ⟨hrd, hwr⟩) he
  obtain rfl : f' = id := hf.elim id id
  obtain rfl : g' = id := hg.elim id id
  exact hu

/-- Settles O56: `exec_mapUnread` with EL changed while EL_VALID is 0, then with BL changed while
BL_VALID is 0. -/
theorem consumedListsAreReadByNothing : Obligations.ConsumedListsAreReadByNothing := by
  constructor
  · intro i s t x hv he
    obtain ⟨f', g', -, hg, hu⟩ := exec_mapUnread (f := fun _ => x) (.inr hv) (.inl rfl)
      (.inl rfl) he
    obtain rfl : g' = id := hg.elim id id
    exact ⟨_, hu, rfl⟩
  · intro i s t x hv he
    obtain ⟨f', g', hf, -, hu⟩ := exec_mapUnread (g := fun _ => x) (.inl rfl) (.inr hv)
      (.inl rfl) he
    obtain rfl : f' = id := hf.elim id id
    exact ⟨_, hu, rfl⟩

end Sys2Proof.Machine

namespace Sys2Proof.Machine

/-! ## The inputs the host has still to present (20_memory.md R70; log entry 1) -/

section HostIn

variable {s t : State}

@[simp] theorem edgeUnit_hostIn : (edgeUnit s).hostIn = s.hostIn := by
  obtain ⟨-, h⟩ | ⟨-, h⟩ := edgeUnit_cases s <;> simp [h]

@[simp] theorem classUnit_hostIn : (classUnit s).hostIn = s.hostIn := by
  obtain ⟨-, h⟩ | ⟨-, -, h⟩ | ⟨-, -, h⟩ := classUnit_cases s <;> simp [h]

@[simp] theorem syncUnit_hostIn : (syncUnit s).hostIn = s.hostIn := by
  obtain h | ⟨_, h⟩ | ⟨_, h⟩ | ⟨_, h⟩ := syncUnit_cases s <;> simp [h, appended]

@[simp] theorem decodeUnit_hostIn : (decodeUnit s).hostIn = s.hostIn := by
  obtain ⟨-, h⟩ | ⟨-, -, -, h⟩ | ⟨-, -, h⟩ := decodeUnit_cases s <;> simp [h]

@[simp] theorem runUnit_hostIn : (runUnit s).hostIn = s.hostIn :=
  runUnit_induct (P := fun u => u.hostIn = s.hostIn) s edgeUnit_hostIn
    (fun _ => classUnit_hostIn.trans) (fun _ => syncUnit_hostIn.trans)
    fun _ => decodeUnit_hostIn.trans

/-- No transaction presents or withdraws an input: only `step` takes from the list. -/
theorem exec_hostIn {i : Instr} (he : exec i s = .next t) : t.hostIn = s.hostIn := by
  cases i with
  | push _ =>
    simp only [exec, execPush] at he
    split at he <;> cases he <;> rfl
  | pop =>
    simp only [exec, execPop] at he
    split at he <;> cases he <;> rfl
  | edge => cases he; exact edgeUnit_hostIn
  | classify => cases he; exact classUnit_hostIn
  | sync => cases he; exact syncUnit_hostIn
  | decode => cases he; exact decodeUnit_hostIn
  | run => cases he; exact runUnit_hostIn
  | _ => cases he; rfl

end HostIn

/-- Settles O10: the list is not empty, so the step is not idle; a transaction is executed on the
state without it, and `exec_hostIn` says that nothing further leaves; a reset keeps the rest. -/
theorem stepConsumesExactlyOneInput : Obligations.StepConsumesExactlyOneInput := by
  intro s t i rest hin hstep
  obtain ⟨hidle, -⟩ | ⟨w, rest', htxn, he⟩ | ⟨rest', hreset, he⟩ := step_cases s
  · rw [hin] at hidle
    cases hidle
  · rw [he] at hstep
    cases hin.symm.trans htxn
    exact exec_hostIn hstep
  · rw [he] at hstep
    cases hin.symm.trans hreset
    cases hstep
    rfl

/-! ## Illegal writes (20_memory.md R66) -/

/-- The indices that are not writable are those of the 18 read-only registers and the unmapped ones
(10_state.md R30, R53). -/
theorem isWritableIndex_eq_false_iff (idx : Index) : isWritableIndex idx = false ↔
    idx.toNat ∈ [0x00, 0x02, 0x03, 0x09, 0x0A, 0x0B, 0x0C, 0x0D, 0x0E, 0x0F, 0x10, 0x11, 0x15,
      0x16, 0x17, 0x18, 0x19, 0x1A] ∨ 0x1B ≤ idx.toNat := by
  revert idx
  decide

/-- Settles O6: the index is not writable, so the write decodes to WR_ILLEGAL, and that raises
ERR_BUS, the one protocol error that leaves RESULT. -/
theorem illegalWritesRaiseErrBus : Obligations.IllegalWritesRaiseErrBus := by
  intro idx data hidx
  have hillegal : decodeWrite idx data = .wrIllegal idx data :=
    decodeWrite_illegal ((isWritableIndex_eq_false_iff idx).mpr hidx) data
  refine ⟨?_, fun s => rfl⟩
  rw [decode, txnIsWrite_txnWord, if_pos rfl, txnIndex_txnWord, txnData_txnWord, hillegal]

/-! ## What a read depends on, and reads that answer 0 (20_memory.md R64, R67) -/

/-- What earlier reads returned does not enter the value of a read. -/
theorem memRead_with_hostOut (s : State) (out : List Word) (idx : Index) :
    memRead { s with hostOut := out } idx = memRead s idx := by
  rw [memRead, memRead]
  cases regAt idx with
  | none => rfl
  | some q => cases q <;> rfl

/-- Settles O12: both indices read `memRead` of `s`, before and after the other read. -/
theorem readsHaveNoSideEffect : Obligations.ReadsHaveNoSideEffect := by
  intro s idx other
  have hreads (out : List Word) (j : Index) :
      ReadsAs { s with hostOut := out } j (memRead s j) :=
    readsAs_iff.mpr (memRead_with_hostOut s out j)
  exact ⟨memRead s idx, memRead s other, hreads s.hostOut idx, hreads _ other, hreads _ idx⟩

/-- The unmapped indices are those from 0x1B on (10_state.md R53). -/
theorem regAt_eq_none_iff (idx : Index) : regAt idx = none ↔ 0x1B ≤ idx.toNat := by
  revert idx
  decide

/-- Settles O13: ID, CMD and SAMPLE_IN each read a constant, and an unmapped index has no register
to read. -/
theorem constantAndEmptyReads : Obligations.ConstantAndEmptyReads := by
  intro s
  refine ⟨readsAs_of_regAt .id rfl rfl, readsAs_of_regAt .cmd rfl rfl,
    readsAs_of_regAt .sampleIn rfl rfl, fun idx hidx => ?_⟩
  rw [readsAs_iff, memRead, (regAt_eq_none_iff idx).mpr hidx]

end Sys2Proof.Machine

namespace Sys2Proof

/-! ## Decoding what was encoded (30_encoding.md R80 to R86) -/

theorem decode_write (idx : Index) (data : Word) :
    decode (txnWord true idx data) = decodeWrite idx data := by
  rw [decode, txnIsWrite_txnWord, if_pos rfl, txnIndex_txnWord, txnData_txnWord]

theorem decode_read (idx : Index) (data : Word) : decode (txnWord false idx data) = .rd idx := by
  rw [decode, txnIsWrite_txnWord, if_neg Bool.false_ne_true, txnIndex_txnWord]

/-- Settles O1: the encoder fixes direction and index, so the decoder's branch is known. Only the
two fallback rows need their condition: it keeps a more specific branch from answering first. -/
theorem decodeOfEncodeIsIdentity : Obligations.DecodeOfEncodeIsIdentity := by
  intro i hwf
  cases i with
  | rd idx => exact decode_read idx 0#32
  | cmdReserved data =>
    have hdata : isCommandWord data = false := by simpa [Instr.wellFormed] using hwf
    exact (decode_write 0x01#8 data).trans (decodeCommand_reserved hdata)
  | wrIllegal idx data =>
    have hidx : isWritableIndex idx = false := by simpa [Instr.wellFormed] using hwf
    exact (decode_write idx data).trans (decodeWrite_illegal hidx data)
  | _ => exact decode_write _ _

/-! ## Every write is the encoding of a transaction -/

/-- The command words are the eight numbers below 8 (30_encoding.md R82). -/
theorem eq_of_isCommandWord {data : Word} (h : isCommandWord data = true) :
    data = 0#32 ∨ data = 1#32 ∨ data = 2#32 ∨ data = 3#32 ∨ data = 4#32 ∨ data = 5#32 ∨
      data = 6#32 ∨ data = 7#32 := by
  have h8 : data.toNat < 8 := by simpa [isCommandWord] using h
  bv_omega

/-- A write to CMD is one of the eight commands or a reserved word. -/
theorem exists_encode_eq_command (data : Word) :
    ∃ i : Instr, i.wellFormed = true ∧ encode i = txnWord true 0x01#8 data := by
  by_cases hdata : isCommandWord data = true
  · obtain rfl | rfl | rfl | rfl | rfl | rfl | rfl | rfl := eq_of_isCommandWord hdata
    exacts [⟨.nop, rfl, rfl⟩, ⟨.clear, rfl, rfl⟩, ⟨.edge, rfl, rfl⟩, ⟨.classify, rfl, rfl⟩,
      ⟨.sync, rfl, rfl⟩, ⟨.decode, rfl, rfl⟩, ⟨.run, rfl, rfl⟩, ⟨.pop, rfl, rfl⟩]
  · exact ⟨.cmdReserved data, by simp [Instr.wellFormed, hdata], rfl⟩

theorem exists_encode_eq_write (idx : Index) (data : Word) :
    ∃ i : Instr, i.wellFormed = true ∧ encode i = txnWord true idx data := by
  by_cases hidx : isWritableIndex idx = true
  · have hmem : idx ∈ writableIndices := by simpa [isWritableIndex] using hidx
    simp only [writableIndices, List.mem_cons, List.not_mem_nil, or_false] at hmem
    obtain rfl | rfl | rfl | rfl | rfl | rfl | rfl | rfl | rfl := hmem
    exacts [exists_encode_eq_command data, ⟨.wrCfg0 data, rfl, rfl⟩, ⟨.wrCfg1 data, rfl, rfl⟩,
      ⟨.wrCfg2 data, rfl, rfl⟩, ⟨.wrSampleRate data, rfl, rfl⟩, ⟨.push data, rfl, rfl⟩,
      ⟨.wrFrame0 data, rfl, rfl⟩, ⟨.wrFrame1 data, rfl, rfl⟩, ⟨.wrFrame2 data, rfl, rfl⟩]
  · exact ⟨.wrIllegal idx data, by simp [Instr.wellFormed, hidx], rfl⟩

/-- A transaction word, once: a read, or the encoding of a well-formed instruction. -/
theorem txnWord_cases (t : TxnWord) :
    (∃ idx data, t = txnWord false idx data) ∨ (∃ i : Instr, i.wellFormed = true ∧ t = encode i) := by
  rw [← txnWord_of_fields t]
  cases txnIsWrite t with
  | false => exact .inl ⟨_, _, rfl⟩
  | true =>
    obtain ⟨i, hwf, henc⟩ := exists_encode_eq_write (txnIndex t) (txnData t)
    exact .inr ⟨i, hwf, henc.symm⟩

/-- Settles O2: a write is the encoding of some well-formed instruction, and by O1 that is the one
it decodes to. -/
theorem everyWordDecodesAndWritesRoundTrip : Obligations.EveryWordDecodesAndWritesRoundTrip := by
  intro t
  obtain ⟨idx, data, rfl⟩ | ⟨i, hwf, rfl⟩ := txnWord_cases t
  · rw [decode_read]
    have hread : (txnWord false idx data).getLsbD 40 = false := txnIsWrite_txnWord false idx data
    exact ⟨rfl, fun hwrite => absurd (hread.symm.trans hwrite) Bool.false_ne_true⟩
  · rw [decodeOfEncodeIsIdentity i hwf]
    exact ⟨hwf, fun _ => rfl⟩

/-! ## The opcode table (spec/opcode_table.json) -/

/-- The row of the words with direction bit `w`. -/
def directionRow (m : String) (w : Bool) : Row := ⟨m, txnWord w 0#8 0#32, txnWord true 0#8 0#32⟩

/-- The row of the writes to index `j`. -/
def indexRow (m : String) (j : Index) : Row := ⟨m, txnWord true j 0#32, txnWord true 0xFF#8 0#32⟩

/-- The row of the one word that writes `d` to CMD. -/
def commandRow (m : String) (d : Word) : Row :=
  ⟨m, txnWord true 0x01#8 d, txnWord true 0xFF#8 0xFFFFFFFF#32⟩

theorem opcodeTable_eq_rows : opcodeTable =
    [directionRow "RD" false, indexRow "WR_CFG0" 0x04#8, indexRow "WR_CFG1" 0x05#8,
      indexRow "WR_CFG2" 0x06#8, indexRow "WR_SAMPLE_RATE" 0x07#8, indexRow "PUSH" 0x08#8,
      indexRow "WR_FRAME0" 0x12#8, indexRow "WR_FRAME1" 0x13#8, indexRow "WR_FRAME2" 0x14#8,
      commandRow "NOP" 0#32, commandRow "CLEAR" 1#32, commandRow "EDGE" 2#32,
      commandRow "CLASS" 3#32, commandRow "SYNC" 4#32, commandRow "DECODE" 5#32,
      commandRow "RUN" 6#32, commandRow "POP" 7#32, indexRow "CMD_RESERVED" 0x01#8,
      directionRow "WR_ILLEGAL" true] := by decide

theorem txnWord_inj {w v : Bool} {i j : Index} {d e : Word} :
    txnWord w i d = txnWord v j e ↔ w = v ∧ i = j ∧ d = e := by
  refine ⟨fun h => ⟨?_, ?_, ?_⟩, fun ⟨hw, hi, hd⟩ => by rw [hw, hi, hd]⟩
  · simpa using congrArg txnIsWrite h
  · simpa using congrArg txnIndex h
  · simpa using congrArg txnData h

section Fits

variable (m : String) (w : Bool) (idx : Index) (data : Word)

@[simp] theorem directionRow_mnemonic : (directionRow m w).mnemonic = m := rfl
@[simp] theorem indexRow_mnemonic : (indexRow m idx).mnemonic = m := rfl
@[simp] theorem commandRow_mnemonic : (commandRow m data).mnemonic = m := rfl

@[simp] theorem directionRow_fits (v : Bool) :
    (directionRow m v).fits (txnWord w idx data) = decide (w = v) := by
  simp [Row.fits, directionRow, txnWord_and, txnWord_inj, Bool.beq_eq_decide_eq]

@[simp] theorem indexRow_fits (j : Index) :
    (indexRow m j).fits (txnWord w idx data) = decide (w = true ∧ idx = j) := by
  have hidx : idx &&& 0xFF#8 = idx := BitVec.and_allOnes
  simp [Row.fits, indexRow, txnWord_and, txnWord_inj, hidx, Bool.beq_eq_decide_eq]

@[simp] theorem commandRow_fits (d : Word) :
    (commandRow m d).fits (txnWord w idx data) = decide (w = true ∧ idx = 0x01#8 ∧ data = d) := by
  have hidx : idx &&& 0xFF#8 = idx := BitVec.and_allOnes
  have hdata : data &&& 0xFFFFFFFF#32 = data := BitVec.and_allOnes
  simp [Row.fits, commandRow, txnWord_and, txnWord_inj, hidx, hdata, Bool.beq_eq_decide_eq]

end Fits

/-- The mnemonic of the first row a word fits. -/
def firstMnemonic (t : TxnWord) : Option String :=
  (opcodeTable.find? (fun r => r.fits t)).map Row.mnemonic

theorem firstMnemonic_read (idx : Index) (data : Word) :
    firstMnemonic (txnWord false idx data) = some "RD" := by
  simp [firstMnemonic, opcodeTable_eq_rows]

/-- A well-formed instruction's first row is its own: the rows before it name another direction,
index or command word, which for the two fallback rows is what well-formedness says. -/
theorem firstMnemonic_encode (i : Instr) (hwf : i.wellFormed = true) :
    firstMnemonic (encode i) = some (mnemonicOf i) := by
  cases i with
  | cmdReserved data =>
    have h8 : ¬ data.toNat < 8 := by simpa [Instr.wellFormed, isCommandWord] using hwf
    have hne (d : Word) (hd : d.toNat < 8) : data ≠ d := fun h => h8 (h ▸ hd)
    simp [firstMnemonic, opcodeTable_eq_rows, encode, mnemonicOf, hne]
  | wrIllegal idx data =>
    have hne : ∀ j ∈ writableIndices, idx ≠ j := by
      have hidx : idx ∉ writableIndices := by simpa [Instr.wellFormed, isWritableIndex] using hwf
      exact fun j hj h => hidx (h ▸ hj)
    simp only [writableIndices, List.forall_mem_cons] at hne
    simp [firstMnemonic, opcodeTable_eq_rows, encode, mnemonicOf, hne]
  | _ => simp [firstMnemonic, opcodeTable_eq_rows, encode, commandWord, mnemonicOf]

/-- Settles O3: `firstMnemonic` of a read and of an encoding, the latter decoded by O1. -/
theorem decodeFollowsOpcodeTable : Obligations.DecodeFollowsOpcodeTable := by
  intro t
  obtain ⟨idx, data, rfl⟩ | ⟨i, hwf, rfl⟩ := txnWord_cases t
  · rw [decode_read]
    exact firstMnemonic_read idx data
  · rw [decodeOfEncodeIsIdentity i hwf]
    exact firstMnemonic_encode i hwf

/-- Settles O4: fifteen fixed words. -/
theorem specWordsDecode : Obligations.SpecWordsDecode := by
  unfold Obligations.SpecWordsDecode
  decide

end Sys2Proof

namespace Sys2Proof.Machine

/-! ## Reserved command words (30_encoding.md R83) -/

/-- The condition of R83, in the fields `op` and `zero`, and the decoder's own. -/
theorem isCommandWord_eq_false_iff (data : Word) :
    isCommandWord data = false ↔ field data 7 0 ≥ 8 ∨ field data 31 8 ≠ 0 := by
  have hop : field data 7 0 = data.toNat % 256 := by simp [field]
  have hzero : field data 31 8 = data.toNat / 256 % 2 ^ 24 := rfl
  have hlt := data.isLt
  rw [hop, hzero, isCommandWord, decide_eq_false_iff_not]
  omega

/-- Settles O5: the word is no command, so it decodes to CMD_RESERVED, and that raises ERR_CMD. -/
theorem reservedCommandWordsRaiseErrCmd : Obligations.ReservedCommandWordsRaiseErrCmd := by
  intro data hreserved
  refine ⟨?_, fun s => rfl⟩
  rw [decode_write]
  exact decodeCommand_reserved ((isCommandWord_eq_false_iff data).mpr hreserved)

/-! ## The bits of a Frame no rule reads (30_encoding.md R90) -/

section UnreadBits

variable {f g : BitVec 80} {s : State}

theorem nib_congr {o : Nat} (h : ∀ j < 4, g.getLsbD (o + j) = f.getLsbD (o + j)) :
    nib g o = nib f o := by
  have h0 : g.getLsbD o = f.getLsbD o := h 0 (by omega)
  rw [nib, nib, h0, h 1 (by omega), h 2 (by omega), h 3 (by omega)]

theorem digit_congr
    (h : ∀ o ∈ [0, 8, 16, 24, 32, 40, 48, 56], ∀ j < 4, g.getLsbD (o + j) = f.getLsbD (o + j)) :
    digit g = digit f := by
  funext d
  exact nib_congr (h d.offset (by cases d <;> decide))

theorem digitsOk_congr (h : digit g = digit f) : digitsOk g = digitsOk f := by
  rw [digitsOk, digitsOk, h]

theorem fields_congr (h : digit g = digit f) :
    hoursField g = hoursField f ∧ minutesField g = minutesField f ∧
      secondsField g = secondsField f ∧ framesField g = framesField f := by
  simp only [hoursField, minutesField, secondsField, framesField, h, and_self]

theorem rangeOk_congr (h : digit g = digit f) (rate : BitVec 2) :
    rangeOk rate g = rangeOk rate f := by
  obtain ⟨hhours, hminutes, hseconds, hframes⟩ := fields_congr h
  rw [rangeOk, rangeOk, hhours, hminutes, hseconds, hframes]

theorem eventOf_congr (h : digit g = digit f) (rate : BitVec 2) :
    eventOf rate g = eventOf rate f := by
  obtain ⟨hhours, hminutes, hseconds, hframes⟩ := fields_congr h
  rw [eventOf, eventOf, hhours, hminutes, hseconds, hframes]

/-- FRAME replaced, FRAME_VALID and everything else as in `s`. -/
def replaceFrame (g : BitVec 80) (s : State) : State := { s with frame := g }

theorem pushEvent_replaceFrame (e : Word) :
    pushEvent e (replaceFrame g s) = replaceFrame g (pushEvent e s) := by
  rw [pushEvent, pushEvent, apply_ite (replaceFrame g)]
  rfl

theorem acceptFrame_replaceFrame (h : digit g = digit s.frame) :
    acceptFrame (replaceFrame g s) = replaceFrame g (acceptFrame s) := by
  have hevent : eventOf (rateCode (replaceFrame g s)) (replaceFrame g s).frame
      = eventOf (rateCode s) s.frame := eventOf_congr h _
  rw [acceptFrame_eq, acceptFrame_eq, hevent, pushEvent_replaceFrame]
  rfl

/-- DECODE reads a Frame by its eight digits only, and leaves FRAME as it is. -/
theorem decodeUnit_replaceFrame (h : digit g = digit s.frame) :
    decodeUnit (replaceFrame g s) = replaceFrame g (decodeUnit s) := by
  have hchecks : (digitsOk g && rangeOk (rateCode s) g)
      = (digitsOk s.frame && rangeOk (rateCode s) s.frame) := by
    rw [digitsOk_congr h, rangeOk_congr h]
  have haccept : acceptFrame (replaceFrame g { s with frameValid := false })
      = replaceFrame g (acceptFrame { s with frameValid := false }) := acceptFrame_replaceFrame h
  simp only [decodeUnit, apply_ite (replaceFrame g), ← haccept, ← hchecks]
  rfl

end UnreadBits

/-- Settles O43: frames that agree on the nibbles have the same digits. -/
theorem unreadFrameBitsChangeNothing : Obligations.UnreadFrameBitsChangeNothing := by
  intro s t g hagree hdecode
  cases hdecode
  exact congrArg Host.Outcome.next (decodeUnit_replaceFrame (digit_congr hagree))

end Sys2Proof.Machine

namespace Sys2Proof.Machine

/-! ## EDGE (40_edge_detector.md R110 to R114) -/

/-- The first outcome of a cycle is alone in WIN_FLAGS. -/
theorem recordOutcome_of_no_flags (c : Code) {s : State} (h : s.winFlags = 0#32) :
    recordOutcome c s = { s with result := c.value, winFlags := c.winFlag } := by
  rw [recordOutcome, h, BitVec.zero_or]

theorem exec_edge (s : State) : exec .edge s = .next (edgeUnit s) := rfl

/-! ### Its two branches, each as an equation in the rising edges of the rule -/

theorem edgeUnit_of_two_edges {s : State} (h : 2 ≤ (risingEdges s.sb).length) :
    edgeUnit s = recordOutcome .edgesOk { takeWindow s with elValid := true } := by
  rw [← edgesOf_eq_risingEdges] at h
  rw [edgeUnit, if_neg h.not_gt]

theorem edgeUnit_of_no_signal {s : State} (h : (risingEdges s.sb).length < 2) :
    edgeUnit s = recordOutcome .noSignal (discardBits { takeWindow s with elValid := false }) := by
  rw [← edgesOf_eq_risingEdges] at h
  rw [edgeUnit, if_pos h]

/-- Both branches leave the same edge list: NO_SIGNAL withholds EL_VALID, not EL. -/
@[simp] theorem edgeUnit_el (s : State) : (edgeUnit s).el = edgesOf s.sb := by
  obtain ⟨-, h⟩ | ⟨-, h⟩ := edgeUnit_cases s <;> rw [h] <;> rfl

/-! ### What EDGE records -/

/-- Settles O24: the EDGES_OK branch. The window taken has a cleared cycle record, so WIN_FLAGS is
the flag of that outcome alone. -/
theorem edgeRecordsTheRisingEdges : Obligations.EdgeRecordsTheRisingEdges := by
  intro s htwo
  rw [exec_edge, edgeUnit_of_two_edges htwo, recordOutcome_of_no_flags, ← edgesOf_eq_risingEdges]
  · rfl
  · exact takeWindow_winFlags s

/-- Settles O25: the NO_SIGNAL branch. What it empties is the accumulator; FRAME and EVQ are among
the fields that neither `takeWindow` nor `discardBits` writes. -/
theorem edgeWithoutSignalEmptiesAccumulator : Obligations.EdgeWithoutSignalEmptiesAccumulator := by
  intro s hfew
  rw [exec_edge, edgeUnit_of_no_signal hfew, recordOutcome_of_no_flags, ← edgesOf_eq_risingEdges]
  · rfl
  · exact takeWindow_winFlags s

/-- Settles O26: the edge list of the new state is the scan of the window from index 0, and such a
scan is sparse. -/
theorem edgeListIsSparse : Obligations.EdgeListIsSparse := by
  intro s t hedge
  cases hedge
  obtain ⟨hapart, hhalf, hindex, -⟩ := edgesFrom_sparse s.sb 0
  rw [edgeUnit_el, edgesOf]
  refine ⟨hapart, hhalf, fun i hi => ?_⟩
  have := hindex i hi
  omega

end Sys2Proof.Machine

namespace Sys2Proof.Machine

/-! ## CLASS (41_pulse_classifier.md R120 to R132) -/

theorem exec_classify (s : State) : exec .classify s = .next (classUnit s) := rfl

/-- Settles O27: step 1 of R120. -/
theorem classWithoutEdgesRaisesErrSeq : Obligations.ClassWithoutEdgesRaisesErrSeq := by
  intro s hinvalid
  rw [exec_classify, classUnit_of_not_valid hinvalid]
  rfl

/-- Settles O28: step 5 of R120, on the state in which steps 3 and 4 have consumed the edge list and
written PULSE_COUNT and PULSE_SUM. -/
theorem tooFewPulsesRejectTheWindow : Obligations.TooFewPulsesRejectTheWindow := by
  intro s hvalid _ hfew
  rw [← minPulses_toNat] at hfew
  rw [exec_classify, classUnit_of_few hvalid hfew]
  rfl

theorem exec_classify_of_enough {s : State} (hvalid : s.elValid = true)
    (henough : field s.cfg1 15 0 ≤ s.el.length - 1) :
    exec .classify s = .next (classified (labels s) s) := by
  rw [← minPulses_toNat] at henough
  rw [exec_classify, classUnit_accept s henough hvalid]

/-! ### The strategy CFG0 selects (R123) -/

theorem labels_of_threshold {s : State} (h : field s.cfg0 0 0 = 0) :
    labels s = thresholdLabels (multiplierK s) (gaps s.el) := by
  rw [labels, twoClusterSelected_eq, h, durations_eq_gaps]
  rfl

theorem labels_of_twoCluster {s : State} (h : field s.cfg0 0 0 = 1) :
    labels s = clusterLabels (iterCap s) (gaps s.el) := by
  rw [labels, twoClusterSelected_eq, h, durations_eq_gaps]
  rfl

/-! ### The adaptive-threshold strategy (R124, R125) -/

/-- The model sorts for the median itself; any ascending arrangement gives the same threshold. -/
theorem thresholdLabels_eq (k : BitVec 8) {d srt : List Int} (hperm : srt.Perm d)
    (hsorted : srt.Pairwise (· ≤ ·)) : thresholdLabels k d
      = d.map (fun x => decide (128 * x ≤ twiceMedian srt * (k.toNat : Int))) := by
  rw [thresholdLabels, med2_eq_twiceMedian hperm hsorted]
  rfl

/-- Settles O29: a trusted window is classified by its labels, and those are the threshold's. -/
theorem adaptiveThresholdLabelsPulses : Obligations.AdaptiveThresholdLabelsPulses := by
  intro s srt hvalid _ henough hselected hperm hsorted
  rw [exec_classify_of_enough hvalid henough, labels_of_threshold hselected,
    thresholdLabels_eq _ hperm hsorted, multiplierK_toNat]

/-! ### The two-cluster strategy: cluster A is the SHORT one (R126, R127)

The strategy calls SHORT the cluster with the lower final mean. That this is always A rests on two
relations between the means and the durations, each of which an iteration keeps: the mean of A is
below that of B, or the two are equal and every duration stands there. -/

/-- The mean of A is below the mean of B. -/
def Apart (m : Means) : Prop := m.a < m.b

/-- Both means stand where every duration is. -/
def Settled (d : List Int) (m : Means) : Prop := m.a = m.b ∧ ∀ x ∈ d, (x : ℚ) = m.a

section Means

variable {d l : List Int} {m : Means}

theorem sum_map_mean (hl : l ≠ []) : (l.map fun _ => (l.sum : ℚ) / (l.length : ℚ)).sum
    = (l.map fun x : Int => (x : ℚ)).sum := by
  have hlen : (l.length : ℚ) ≠ 0 := by simpa using hl
  rw [List.map_const', List.sum_replicate, nsmul_eq_mul, mul_div_cancel₀ _ hlen, Int.cast_list_sum]

/-- Of the durations that make up a mean one is at most the mean. -/
theorem exists_le_mean (hl : l ≠ []) : ∃ x ∈ l, (x : ℚ) ≤ (l.sum : ℚ) / (l.length : ℚ) :=
  List.exists_le_of_sum_le hl _ _ (sum_map_mean hl).ge

/-- Of the durations that make up a mean one is at least the mean. -/
theorem exists_mean_le (hl : l ≠ []) : ∃ x ∈ l, (l.sum : ℚ) / (l.length : ℚ) ≤ (x : ℚ) :=
  List.exists_le_of_sum_le hl _ _ (sum_map_mean hl).le

theorem meanOr_le {old q : ℚ} (hold : old ≤ q) (h : ∀ x ∈ l, (x : ℚ) ≤ q) : meanOr l old ≤ q := by
  rw [meanOr]
  split
  · exact hold
  · next hl =>
    obtain ⟨x, hx, hle⟩ := exists_mean_le hl
    exact hle.trans (h x hx)

theorem lt_meanOr {old q : ℚ} (hold : q < old) (h : ∀ x ∈ l, q < (x : ℚ)) : q < meanOr l old := by
  rw [meanOr]
  split
  · exact hold
  · next hl =>
    obtain ⟨x, hx, hle⟩ := exists_le_mean hl
    exact (h x hx).trans_le hle

theorem meanOr_eq {old : ℚ} (h : ∀ x ∈ l, (x : ℚ) = old) : meanOr l old = old := by
  rw [meanOr]
  split
  · rfl
  · next hl =>
    obtain ⟨x, hx, hle⟩ := exists_le_mean hl
    obtain ⟨y, hy, hge⟩ := exists_mean_le hl
    exact le_antisymm (hge.trans (h y hy).le) ((h x hx).ge.trans hle)

/-- Between means that are apart, A receives what lies up to the midpoint. -/
theorem nearerA_iff_of_apart (h : Apart m) (x : Int) :
    nearerA m x = true ↔ (x : ℚ) ≤ (m.a + m.b) / 2 := by
  have hpos : 0 < m.b - m.a := sub_pos.mpr h
  have hfactor : ((x : ℚ) - m.b) ^ 2 - ((x : ℚ) - m.a) ^ 2
      = (m.b - m.a) * (m.a + m.b - 2 * x) := by ring
  rw [nearerA, decide_eq_true_eq, ← sq_le_sq, ← sub_nonneg, hfactor,
    mul_nonneg_iff_of_pos_left hpos]
  constructor <;> intro hx <;> linarith

/-- After the assignment the midpoint still separates the clusters, and so their means. -/
theorem apart_succ {t : Nat} (h : Apart (meansAfter d t)) : Apart (meansAfter d (t + 1)) := by
  have hlt : (meansAfter d t).a < (meansAfter d t).b := h
  have hA : (meansAfter d (t + 1)).a ≤ ((meansAfter d t).a + (meansAfter d t).b) / 2 := by
    refine meanOr_le (by linarith) fun x hx => ?_
    exact (nearerA_iff_of_apart h x).mp (List.mem_filter.mp hx).2
  have hB : ((meansAfter d t).a + (meansAfter d t).b) / 2 < (meansAfter d (t + 1)).b := by
    refine lt_meanOr (by linarith) fun x hx => ?_
    have hfar : nearerA (meansAfter d t) x ≠ true := by simpa using (List.mem_filter.mp hx).2
    exact not_le.mp (mt (nearerA_iff_of_apart h x).mpr hfar)
  exact hA.trans_lt hB

/-- A tie goes to A, so equal means leave nothing to B. -/
theorem nearerA_of_settled (h : Settled d m) (x : Int) : nearerA m x = true := by
  rw [nearerA, h.1]
  exact decide_eq_true le_rfl

theorem settled_succ {t : Nat} (h : Settled d (meansAfter d t)) :
    Settled d (meansAfter d (t + 1)) := by
  have hall := nearerA_of_settled h
  obtain ⟨hmeans, hd⟩ := h
  have hA : (meansAfter d (t + 1)).a = (meansAfter d t).a :=
    meanOr_eq fun x hx => hd x (List.mem_of_mem_filter hx)
  have hB : (meansAfter d (t + 1)).b = (meansAfter d t).b := by
    simp [meansAfter, hall, meanOr]
  exact ⟨by rw [hA, hB, hmeans], fun x hx => by rw [hA, hd x hx]⟩

/-- The seeds are the ends of an interval that holds every duration. -/
theorem mem_between_seeds {x : Int} (hx : x ∈ d) :
    (meansAfter d 0).a ≤ x ∧ (x : ℚ) ≤ (meansAfter d 0).b := by
  obtain ⟨lo, hlo⟩ := Option.isSome_iff_exists.mp (List.isSome_min?_of_mem hx)
  obtain ⟨hi, hhi⟩ := Option.isSome_iff_exists.mp (List.isSome_max?_of_mem hx)
  have hle : lo ≤ x := (List.le_min?_iff hlo).mp le_rfl x hx
  have hge : x ≤ hi := (List.max?_le_iff hhi).mp le_rfl x hx
  simp only [meansAfter, hlo, hhi, Option.getD_some]
  exact ⟨by exact_mod_cast hle, by exact_mod_cast hge⟩

theorem seeds_apart_or_settled (d : List Int) :
    Apart (meansAfter d 0) ∨ Settled d (meansAfter d 0) := by
  refine or_iff_not_imp_left.mpr fun hnot => ?_
  have hle : (meansAfter d 0).b ≤ (meansAfter d 0).a := not_lt.mp hnot
  cases d with
  | nil => exact ⟨rfl, nofun⟩
  | cons y d =>
    have hbetween (x : Int) (hx : x ∈ y :: d) := mem_between_seeds hx
    obtain ⟨hlo, hhi⟩ := hbetween y List.mem_cons_self
    refine ⟨by linarith, fun x hx => ?_⟩
    obtain ⟨hlo, hhi⟩ := hbetween x hx
    linarith

theorem settled_after (h : Settled d (meansAfter d 0)) (t : Nat) : Settled d (meansAfter d t) := by
  induction t with
  | zero => exact h
  | succ t ih => exact settled_succ ih

theorem apart_after (h : Apart (meansAfter d 0)) (t : Nat) : Apart (meansAfter d t) := by
  induction t with
  | zero => exact h
  | succ t ih => exact apart_succ ih

/-- The mean of A is never the greater one. -/
theorem meansAfter_a_le_b (d : List Int) (t : Nat) : (meansAfter d t).a ≤ (meansAfter d t).b := by
  obtain h | h := seeds_apart_or_settled d
  · exact (apart_after h t).le
  · exact (settled_after h t).1.le

/-- The comparison of CLASS, cross-multiplied by the counts, is that of the means. -/
theorem sA_mul_cB_le_iff {c : Clusters} (h : StandsFor c m) :
    c.sA * (c.cB : Int) ≤ c.sB * (c.cA : Int) ↔ m.a ≤ m.b := by
  obtain ⟨hA, hB, ha, hb⟩ := h
  have hA' : (0 : ℚ) < c.cA := by exact_mod_cast hA
  have hB' : (0 : ℚ) < c.cB := by exact_mod_cast hB
  rw [ha, hb, div_le_div_iff₀ hA' hB']
  exact_mod_cast Iff.rfl

end Means

/-- The labels are the assignment of the last iteration, cluster A being SHORT. -/
theorem clusterLabels_eq_assignmentAt {cap : BitVec 4} {d : List Int} {t : Nat}
    (hlast : LastIteration cap.toNat d t) : clusterLabels cap d = assignmentAt d t := by
  obtain ⟨hmeans, hassign⟩ : StandsFor (twoMeans cap d).1 (meansAfter d t) ∧
      (twoMeans cap d).2 = assignmentAt d t :=
    twoMeansLoop_eq d cap.toNat t hlast _ 0 _ (by omega) hlast.1 (seeds_standFor d)
  rw [clusterLabels, if_pos ((sA_mul_cB_le_iff hmeans).mpr (meansAfter_a_le_b d t)), hassign]

/-- Settles O30: a trusted window is classified by its labels, and those are cluster A's. -/
theorem twoClusterLabelsPulses : Obligations.TwoClusterLabelsPulses := by
  intro s t hvalid _ henough hselected hlast
  rw [← iterCap_toNat] at hlast
  rw [exec_classify_of_enough hvalid henough, labels_of_twoCluster hselected,
    clusterLabels_eq_assignmentAt hlast]

/-! ### Equal durations (R127) -/

theorem settled_seeds_of_forall_eq {d : List Int} {x : Int} (hne : d ≠ []) (h : ∀ y ∈ d, y = x) :
    Settled d (meansAfter d 0) := by
  have hd : d = List.replicate d.length x := List.eq_replicate_iff.mpr ⟨rfl, h⟩
  have hlen : 0 < d.length := List.length_pos_iff.mpr hne
  rw [hd]
  simp [Settled, meansAfter, List.min?_replicate_of_pos hlen, List.max?_replicate_of_pos hlen]

theorem assignmentAt_of_settled {d : List Int} (h : Settled d (meansAfter d 0)) (t : Nat) :
    assignmentAt d t = List.replicate d.length true := by
  rw [assignmentAt, ← List.map_const']
  exact List.map_congr_left fun x _ => nearerA_of_settled (settled_after h (t - 1)) x

/-- Settles O31: O30 at the last iteration, whichever it is; equal durations put both seeds on the
same value, where all durations tie and go to A. -/
theorem equalDurationsAreAllShort : Obligations.EqualDurationsAreAllShort := by
  intro s x hvalid htwo henough hselected hequal
  have hne : gaps s.el ≠ [] := by
    rw [← List.length_pos_iff, gaps_length]
    omega
  obtain ⟨t, hlast⟩ := lastIteration_exists (field s.cfg0 19 16) (gaps s.el)
  rw [twoClusterLabelsPulses s t hvalid htwo henough hselected hlast,
    assignmentAt_of_settled (settled_seeds_of_forall_eq hne hequal), gaps_length]

/-! ### The statistics of a trusted window (R128, R129, R131) -/

section Classified

variable (b : Bits) (s : State)

@[simp] theorem classified_bl : (classified b s).bl = b := rfl
@[simp] theorem classified_pulseCount :
    (classified b s).pulseCount = BitVec.ofNat 16 (s.el.length - 1) := rfl
@[simp] theorem classified_pulseSum :
    (classified b s).pulseSum = BitVec.ofInt 17 (spanOf s.el) := rfl
@[simp] theorem classified_shortCount :
    (classified b s).shortCount = BitVec.ofNat 16 (b.count true) := rfl
@[simp] theorem classified_longCount :
    (classified b s).longCount = BitVec.ofNat 16 (b.count false) := rfl

end Classified

/-- BITS_OK tells the trusted window from the other two endings of CLASS. -/
theorem classUnit_of_bitsOk {s : State} (h : (classUnit s).result = 2#4) :
    s.elValid = true ∧ classUnit s = classified (labels s) s := by
  obtain ⟨-, hc⟩ | ⟨-, -, hc⟩ | ⟨hvalid, henough, -⟩ := classUnit_cases s
  · simp [hc] at h
  · simp [hc] at h
  · exact ⟨hvalid, classUnit_accept s henough hvalid⟩

/-- Edges 2 apart make durations of at least 2. -/
theorem two_le_of_mem_gaps {el : List Nat} (h : el.Pairwise (fun a b => a + 2 ≤ b)) {x : Int}
    (hx : x ∈ gaps el) : 2 ≤ x := by
  obtain ⟨k, hk, rfl⟩ := List.mem_map.mp hx
  have hlt : k + 1 < el.length := by
    have := List.mem_range.mp hk
    omega
  have hapart := List.pairwise_iff_getElem.mp h k (k + 1) (by omega) hlt (by omega)
  rw [List.getD_eq_getElem _ _ hlt, List.getD_eq_getElem _ _ (by omega)]
  omega

/-- PULSE_SUM is wide enough for the span of an edge list that meets the invariant. -/
theorem ofInt_spanOf_toNat {s : State} (h : Invariant s) (hvalid : s.elValid = true) :
    ((BitVec.ofInt 17 (spanOf s.el)).toNat : Int) = spanOf s.el := by
  have htwo := h.el_valid hvalid
  have hne : s.el ≠ [] := List.ne_nil_of_length_pos (by omega)
  obtain ⟨hlo, hhi⟩ := spanOf_range hne h.el_gaps h.el_range
  have hcap : Config.sbCap = 65536 := rfl
  rw [BitVec.toNat_ofInt]
  omega

/-- Settles O32: the counts are those of the labels, one label per pulse, and every number fits its
register because the invariant bounds the edge list. -/
theorem trustedWindowStatistics : Obligations.TrustedWindowStatistics := by
  intro s t hinv hexec hok
  have hafter := exec_keeps_invariant hinv hexec
  cases hexec
  obtain ⟨hvalid, hclass⟩ := classUnit_of_bitsOk hok
  rw [hclass] at hafter ⊢
  have hel := hinv.el_length
  have hlen := labels_length s
  have hsplit := count_true_add_count_false (labels s)
  refine ⟨(hafter.bl_valid rfl).2, ?_, ?_, ?_, ?_, fun x => two_le_of_mem_gaps hinv.el_gaps⟩
  · rw [classified_shortCount, classified_bl, BitVec.toNat_ofNat]
    omega
  · simp only [classified_shortCount, classified_longCount, classified_pulseCount,
      BitVec.toNat_ofNat]
    omega
  · rw [classified_pulseSum, ofInt_spanOf_toNat hinv hvalid, gaps_sum]
  · exact Nat.le_of_add_le_add_right hafter.pulse_sum

/-! ### LTC_LIKE gates nothing (R130) -/

/-- LTC_LIKE replaced, everything else as in `s`. -/
def withLtcLike (b : Bool) (s : State) : State := { s with ltcLike := b }

section LtcLike

variable (b : Bool) (s : State)

@[simp] theorem withLtcLike_result : (withLtcLike b s).result = s.result := rfl
@[simp] theorem withLtcLike_acc : (withLtcLike b s).acc = s.acc := rfl
@[simp] theorem withLtcLike_evq : (withLtcLike b s).evq = s.evq := rfl

theorem edgeUnit_withLtcLike : edgeUnit (withLtcLike b s) = withLtcLike b (edgeUnit s) := by
  rw [edgeUnit, edgeUnit, apply_ite (withLtcLike b)]
  rfl

/-- CLASS reads no LTC_LIKE. Without an edge list it keeps the one it finds; a window that it
rejects or classifies gives its own. -/
theorem classUnit_withLtcLike :
    ∃ c, classUnit (withLtcLike b s) = withLtcLike c (classUnit s) := by
  obtain ⟨hv, hc⟩ | ⟨hv, hn, hc⟩ | ⟨hv, hn, hc⟩ := classUnit_cases s <;> rw [hc]
  · exact ⟨b, classUnit_of_not_valid hv⟩
  · exact ⟨false, classUnit_of_few hv hn⟩
  · exact ⟨_, classUnit_of_enough hv hn⟩

theorem searchAcc_withLtcLike : searchAcc (withLtcLike b s) = withLtcLike b (searchAcc s) := by
  rw [searchAcc, searchAcc, withLtcLike_acc]
  cases findSync s.acc with
  | none => rfl
  | some p =>
    simp only [apply_ite (withLtcLike b)]
    rfl

theorem syncUnit_withLtcLike : syncUnit (withLtcLike b s) = withLtcLike b (syncUnit s) := by
  rw [syncUnit, syncUnit, appendWindow_eq, appendWindow_eq, ← searchAcc_withLtcLike]
  rfl

theorem pushEvent_withLtcLike (e : Word) :
    pushEvent e (withLtcLike b s) = withLtcLike b (pushEvent e s) := by
  rw [pushEvent, pushEvent, apply_ite (withLtcLike b)]
  rfl

theorem acceptFrame_withLtcLike :
    acceptFrame (withLtcLike b s) = withLtcLike b (acceptFrame s) := by
  rw [acceptFrame_eq, acceptFrame_eq, pushEvent_withLtcLike]
  rfl

theorem decodeUnit_withLtcLike : decodeUnit (withLtcLike b s) = withLtcLike b (decodeUnit s) := by
  simp only [decodeUnit, apply_ite (withLtcLike b), ← acceptFrame_withLtcLike]
  rfl

theorem syncDecodeLoop_withLtcLike (n : Nat) :
    syncDecodeLoop n (withLtcLike b s) = withLtcLike b (syncDecodeLoop n s) := by
  induction n generalizing s with
  | zero => rfl
  | succ n ih =>
    simp only [syncDecodeLoop, syncUnit_withLtcLike, decodeUnit_withLtcLike, ih,
      apply_ite (withLtcLike b)]
    rfl

/-- Every stage of RUN answers the same, so RUN takes the same way through them. -/
theorem runUnit_withLtcLike : ∃ c, runUnit (withLtcLike b s) = withLtcLike c (runUnit s) := by
  simp only [runUnit, edgeUnit_withLtcLike, withLtcLike_result]
  generalize edgeUnit s = e
  obtain ⟨c, hclass⟩ := classUnit_withLtcLike b e
  split
  · refine ⟨c, ?_⟩
    rw [hclass, withLtcLike_result, apply_ite (withLtcLike c), ← syncDecodeLoop_withLtcLike]
    rfl
  · exact ⟨b, rfl⟩

end LtcLike

/-- What a stage command, RUN or POP does with another LTC_LIKE: the same, but for LTC_LIKE. -/
theorem exec_withLtcLike {i : Instr} {s t : State} (b : Bool)
    (hi : i ∈ [Instr.edge, .classify, .sync, .decode, .run, .pop]) (he : exec i s = .next t) :
    ∃ c, exec i (withLtcLike b s) = .next (withLtcLike c t) := by
  cases i with
  | edge => cases he; exact ⟨b, congrArg _ (edgeUnit_withLtcLike b s)⟩
  | classify => cases he; exact (classUnit_withLtcLike b s).imp fun _ => congrArg _
  | sync => cases he; exact ⟨b, congrArg _ (syncUnit_withLtcLike b s)⟩
  | decode => cases he; exact ⟨b, congrArg _ (decodeUnit_withLtcLike b s)⟩
  | run => cases he; exact (runUnit_withLtcLike b s).imp fun _ => congrArg _
  | pop =>
    refine ⟨b, ?_⟩
    simp only [exec, execPop, withLtcLike_evq] at he ⊢
    split at he <;> cases he <;> rfl
  | _ => simp at hi

/-- Settles O57: two states that differ in LTC_LIKE are one state when it is 0 in both. -/
theorem ltcLikeGatesNothing : Obligations.LtcLikeGatesNothing := by
  intro i s t b hi he
  obtain ⟨c, hu⟩ := exec_withLtcLike b hi he
  exact ⟨_, hu, rfl⟩

end Sys2Proof.Machine

namespace Sys2Proof.Machine

/-! ## SYNC (42_frame_synchronizer.md R140 to R148) -/

/-! ### The endings of the search, each as an equation on ACC after the append (R140) -/

section Search

variable {s : State} {p : Nat}

theorem exec_sync (s : State) : exec .sync s = .next (searchAcc (appended s)) := by
  rw [← appendWindow_eq]
  rfl

/-- DEFER_CNT is compared with DEFER_MAX as the rule does, as numbers. -/
theorem deferCnt_lt_deferMax_iff (s : State) :
    s.deferCnt < deferMax s ↔ s.deferCnt.toNat < field s.cfg0 23 20 := by
  rw [BitVec.lt_def, deferMax_toNat]

theorem exec_sync_of_absent (h : ∀ p, ¬ SyncAt (afterAppend s) p) :
    exec .sync s = .next (syncAbsent (appended s)) := by
  have hfind : findSync (appended s).acc = none := (findSync_eq_none _).mpr h
  rw [exec_sync, searchAcc, hfind]

theorem exec_sync_of_first (h : FirstSyncAt (afterAppend s) p) : exec .sync s = .next
    (if p + 96 ≤ (afterAppend s).length then extractFrame (p + 16) (appended s)
      else if s.deferCnt.toNat < field s.cfg0 23 20 then deferMatch p (appended s)
      else giveUpMatch (p + 16) (appended s)) := by
  have hfind : findSync (appended s).acc = some p := (findSync_eq_some _ _).mpr h
  simp only [exec_sync, searchAcc, hfind, deferCnt_lt_deferMax_iff]
  rfl

end Search

/-! ### A match with 80 bits after it (R143) -/

/-- Bit `j` of the candidate Frame is bit `j` after the sync word. -/
theorem frameOfBits_drop_take_getLsbD {a : Bits} {i j : Nat} (hlen : i + 80 ≤ a.length)
    (hj : j < 80) : a[i + j]? = some ((frameOfBits ((a.drop i).take 80)).getLsbD j) := by
  have hin : i + j < a.length := by omega
  rw [frameOfBits_getLsbD _ hj, List.getElem?_take_of_lt hj, List.getElem?_drop,
    List.getElem?_eq_getElem hin]
  rfl

/-- Settles O33: the branch of `exec_sync_of_first` with room for a Frame. -/
theorem syncExtractsTheFrame : Obligations.SyncExtractsTheFrame := by
  intro s p hfirst hroom
  refine ⟨_, fun j hj => frameOfBits_drop_take_getLsbD (i := p + 16) (by omega) hj, ?_⟩
  rw [exec_sync_of_first hfirst, if_pos hroom]
  rfl

/-! ### An incomplete match (R144, R145) -/

/-- Settles O34: the deferring branch. DEFER_CNT stands below a 4-bit number, so one more does not
wrap. -/
theorem syncDefersAnIncompleteMatch : Obligations.SyncDefersAnIncompleteMatch := by
  intro s p hfirst hshort hbelow
  have hnowrap : (s.deferCnt + 1#4).toNat = s.deferCnt.toNat + 1 := by
    have hmax := (deferMax s).isLt
    rw [deferMax_toNat] at hmax
    exact BitVec.toNat_add_of_lt (show s.deferCnt.toNat + 1 < 2 ^ 4 by omega)
  have ⟨⟨hwhole, _⟩, _⟩ := hfirst
  refine ⟨s.deferCnt + 1#4, hnowrap, ?_, ?_⟩
  · rw [exec_sync_of_first hfirst, if_neg hshort.not_ge, if_pos hbelow]
    rfl
  · rw [List.length_drop]
    omega

/-- Settles O35: the last branch of `exec_sync_of_first`. -/
theorem syncGivesUpAtTheRetryBound : Obligations.SyncGivesUpAtTheRetryBound := by
  intro s p hfirst hshort hbound
  refine ⟨?_, ?_⟩
  · rw [exec_sync_of_first hfirst, if_neg hshort.not_ge, if_neg hbound.not_gt]
    rfl
  · rw [List.length_drop]
    omega

/-! ### No match (R146) -/

/-- Settles O36: `last(15, ACC)` is what is left after all but 15 bits are dropped. -/
theorem syncKeepsFifteenBitsWithoutMatch : Obligations.SyncKeepsFifteenBitsWithoutMatch := by
  intro s habsent
  rw [exec_sync_of_absent habsent]
  rfl

/-! ### Matches do not overlap (R147) -/

theorem syncWord_drop_ne_take :
    ∀ k < 16, 0 < k → Config.syncWord.drop (16 - k) ≠ Config.syncWord.take k := by
  decide

/-- Where two matches `16 - k` apart overlap, the last `k` bits of the first are the first `k` bits
of the second. -/
theorem syncWord_drop_eq_take_of_overlap {a : Bits} {p k : Nat} (hk : k ≤ 16) (hp : SyncAt a p)
    (hq : SyncAt a (p + (16 - k))) : Config.syncWord.drop (16 - k) = Config.syncWord.take k := by
  obtain ⟨-, hpbits⟩ := hp
  obtain ⟨-, hqbits⟩ := hq
  refine List.ext_getElem? fun j => ?_
  rw [List.getElem?_drop]
  obtain hj | hj := Nat.lt_or_ge j k
  · rw [List.getElem?_take_of_lt hj, ← hqbits j (by omega), ← hpbits _ (by omega), Nat.add_assoc]
  · rw [List.getElem?_take_eq_none hj, List.getElem?_eq_none (by rw [syncWord_length]; omega)]

/-- A match stays a match when only bits before it are dropped. -/
theorem syncAt_drop_sub {a : Bits} {n q : Nat} (h : SyncAt a q) (hn : n ≤ q) :
    SyncAt (a.drop n) (q - n) := by
  obtain ⟨hlen, hbits⟩ := h
  refine ⟨by rw [List.length_drop]; omega, fun j hj => ?_⟩
  rw [List.getElem?_drop, ← Nat.add_assoc, Nat.add_sub_cancel' hn]
  exact hbits j hj

/-- Settles O37: matches less than 16 apart would make the end of the sync word its beginning. -/
theorem syncWordsNeverOverlap : Obligations.SyncWordsNeverOverlap := by
  refine ⟨fun k hpos hlt => syncWord_drop_ne_take k hlt hpos, fun a p q hp hq hpq => ?_⟩
  have hapart : p + 16 ≤ q := by
    by_contra hnear
    obtain ⟨k, hpos, hlt, rfl⟩ : ∃ k, 0 < k ∧ k < 16 ∧ q = p + (16 - k) :=
      ⟨p + 16 - q, by omega, by omega, by omega⟩
    exact syncWord_drop_ne_take k hlt hpos (syncWord_drop_eq_take_of_overlap hlt.le hp hq)
  exact ⟨hapart, syncAt_drop_sub hq hapart⟩

/-! ### The bounds on ACC (R148) -/

/-- Settles O38: what is left after each ending but FRAME. -/
theorem syncBoundsTheAccumulator : Obligations.SyncBoundsTheAccumulator := by
  intro s t hsync hnoframe
  rw [exec_sync] at hsync
  cases hsync
  obtain ⟨-, h⟩ | ⟨p, ⟨⟨hwhole, -⟩, -⟩, ⟨-, h⟩ | ⟨hshort, -, h⟩ | ⟨hshort, -, h⟩⟩ :=
    searchAcc_cases (appended s) <;> rw [h] at hnoframe ⊢
  · have hlen : (syncAbsent (appended s)).acc.length ≤ 15 :=
      (lastBits_length _ _).trans_le (Nat.min_le_left _ _)
    exact ⟨by omega, fun _ => by omega, by simp⟩
  · simp at hnoframe
  · have hlen : (deferMatch p (appended s)).acc.length = _ - p := List.length_drop
    exact ⟨by omega, by simp, fun _ => by omega⟩
  · have hlen : (giveUpMatch (p + 16) (appended s)).acc.length = _ - (p + 16) :=
      List.length_drop
    exact ⟨by omega, fun _ => by omega, by simp⟩

/-! ## RUN and the accumulator (R148; 44_host_commands.md R191) -/

/-- The loop has SYNCs enough, each using up 16 bits, to end on one that does not answer FRAME. -/
theorem syncDecodeLoop_acc_length {n : Nat} {s : State} (h : (afterAppend s).length < 16 * n) :
    (syncDecodeLoop n s).acc.length ≤ 95 := by
  induction n generalizing s with
  | zero => omega
  | succ n ih =>
    rw [syncDecodeLoop]
    split
    · next hframe =>
      obtain ⟨hused, -⟩ := syncDecode_uses_bits hframe
      exact ih (by omega)
    · next hnoframe => exact (syncBoundsTheAccumulator s _ rfl hnoframe).1

/-- The next append has room for the bits that wait in BL. -/
def AppendFits (s : State) : Prop :=
  s.blValid = true → s.acc.length + s.bl.length ≤ Config.accCap

section AppendFits

variable {s : State}

theorem appended_accOvf (h : AppendFits s) : (appended s).accOvf = s.accOvf := by
  have hno : (s.blValid && decide (Config.accCap < s.acc.length + s.bl.length)) = false := by
    simpa [AppendFits] using h
  simp only [appended, hno, Bool.or_false]

/-- After a SYNC no bits wait. -/
theorem syncUnit_appendFits (s : State) : AppendFits (syncUnit s) := by
  have hbl : (syncUnit s).blValid = false := by
    obtain h | ⟨_, h⟩ | ⟨_, h⟩ | ⟨_, h⟩ := syncUnit_cases s <;> rw [h] <;> rfl
  exact fun hv => absurd hv (by simp [hbl])

theorem syncUnit_accOvf (h : AppendFits s) : (syncUnit s).accOvf = s.accOvf := by
  rw [← appended_accOvf h]
  obtain he | ⟨_, he⟩ | ⟨_, he⟩ | ⟨_, he⟩ := syncUnit_cases s <;> rw [he] <;> rfl

theorem decodeUnit_appendFits (h : AppendFits s) : AppendFits (decodeUnit s) := by
  obtain ⟨hacc, hv, hbl, -⟩ := decodeUnit_frame s
  rwa [AppendFits, hacc, hv, hbl]

/-- Only the first SYNC of the loop appends, so its append decides ACC_OVF. -/
theorem syncDecodeLoop_accOvf (n : Nat) (h : AppendFits s) :
    (syncDecodeLoop n s).accOvf = s.accOvf := by
  refine (syncDecodeLoop_induct (P := fun t => AppendFits t ∧ t.accOvf = s.accOvf) ?_ ?_ n
    ⟨h, rfl⟩).2
  · rintro t ⟨hfits, hovf⟩
    exact ⟨syncUnit_appendFits t, (syncUnit_accOvf hfits).trans hovf⟩
  · rintro t ⟨hfits, hovf⟩
    obtain ⟨-, -, -, -, hkeeps, -⟩ := decodeUnit_frame t
    exact ⟨decodeUnit_appendFits hfits, hkeeps.trans hovf⟩

end AppendFits

/-- EDGE keeps ACC or empties it, and leaves ACC_OVF alone. -/
theorem edgeUnit_acc (s : State) :
    (edgeUnit s).acc.length ≤ s.acc.length ∧ (edgeUnit s).accOvf = s.accOvf := by
  obtain ⟨-, h⟩ | ⟨-, h⟩ := edgeUnit_cases s <;> rw [h]
  · exact ⟨Nat.zero_le _, rfl⟩
  · exact ⟨le_rfl, rfl⟩

/-- CLASS keeps ACC or empties it, and leaves ACC_OVF alone. -/
theorem classUnit_acc (s : State) :
    (classUnit s).acc.length ≤ s.acc.length ∧ (classUnit s).accOvf = s.accOvf := by
  obtain ⟨-, h⟩ | ⟨-, -, h⟩ | ⟨-, -, h⟩ := classUnit_cases s <;> rw [h]
  · exact ⟨le_rfl, rfl⟩
  · exact ⟨Nat.zero_le _, rfl⟩
  · exact ⟨le_rfl, rfl⟩

/-- The number of SYNCs RUN allows is enough for the bits its first append leaves. -/
theorem afterAppend_length_lt_syncBound (s : State) :
    (afterAppend s).length < 16 * syncBound s := by
  have := afterAppend_length_le s
  rw [syncBound]
  omega

/-- ACC holds at most 95 bits when RUN appends, and `ACC_CAP` leaves room for `BL_CAP` more. -/
theorem Invariant.appendFits {s : State} (h : Invariant s) (hacc : s.acc.length ≤ 95) :
    AppendFits s := by
  intro _
  have hbl : s.bl.length ≤ 32767 := h.bl_capacity
  show _ ≤ 65536
  omega

/-- Settles O50: EDGE and CLASS leave no more bits than there were, so the one append of the loop
fits; and the loop ends on a SYNC that does not answer FRAME. -/
theorem runNeverOverflowsTheAccumulator : Obligations.RunNeverOverflowsTheAccumulator := by
  intro s t hinv hacc hrun
  cases hrun
  obtain ⟨hedge, hedgeOvf⟩ := edgeUnit_acc s
  obtain ⟨hclass, hclassOvf⟩ := classUnit_acc (edgeUnit s)
  have hclassInv := classUnit_keeps_invariant (edgeUnit_keeps_invariant hinv)
  simp only [runUnit]
  split
  · split
    · exact ⟨syncDecodeLoop_acc_length (afterAppend_length_lt_syncBound _),
        (syncDecodeLoop_accOvf _ (hclassInv.appendFits (by omega))).trans
          (hclassOvf.trans hedgeOvf)⟩
    · exact ⟨by omega, hclassOvf.trans hedgeOvf⟩
  · exact ⟨by omega, hedgeOvf⟩

end Sys2Proof.Machine

namespace Sys2Proof.Machine

/-! ## DECODE (43_timecode_decoder.md R160 to R168) -/

theorem exec_decode (s : State) : exec .decode s = .next (decodeUnit s) := rfl

/-! ### Its three branches, each as an equation in the checks of the rules -/

section Branches

variable {s : State}

theorem decodeUnit_of_no_candidate (h : s.frameValid = false) : decodeUnit s = raise .seq s := by
  simp [decodeUnit, h]

theorem decodeUnit_of_validFrame (hv : s.frameValid = true)
    (hf : ValidFrame (field s.cfg0 2 1) s.frame) :
    decodeUnit s = acceptFrame { s with frameValid := false } := by
  rw [← rateCode_toNat] at hf
  rw [decodeUnit, if_pos hv, if_pos ((checks_iff_validFrame _ _).mpr hf)]

theorem decodeUnit_of_not_validFrame (hv : s.frameValid = true)
    (hf : ¬ ValidFrame (field s.cfg0 2 1) s.frame) :
    decodeUnit s = rejectFrame { s with frameValid := false } := by
  rw [← rateCode_toNat] at hf
  rw [decodeUnit, if_pos hv, if_neg (mt (checks_iff_validFrame _ _).mp hf)]

end Branches

/-- Settles O39: step 1 of R160. -/
theorem decodeWithoutFrameRaisesErrSeq : Obligations.DecodeWithoutFrameRaisesErrSeq := by
  intro s hnone
  rw [exec_decode, decodeUnit_of_no_candidate hnone]
  rfl

/-- Settles O41: the rejecting branch, which touches the cycle record and FRAME_VALID only. -/
theorem decodeRejectsAnInvalidFrame : Obligations.DecodeRejectsAnInvalidFrame := by
  intro s hcandidate hinvalid
  rw [exec_decode, decodeUnit_of_not_validFrame hcandidate hinvalid]
  rfl

/-! ### The event enters the queue (R165) -/

/-- A full queue and one with room as one update: the oldest event leaves, and EV_OVF is set, only
when the queue is full. -/
theorem pushEvent_eq (e : Word) (s : State) :
    pushEvent e s =
      { s with
        evq := (if s.evq.length = 64 then s.evq.drop 1 else s.evq) ++ [e]
        evOvf := s.evOvf || decide (s.evq.length = 64) } := by
  obtain ⟨hfull, h⟩ | ⟨hroom, h⟩ := pushEvent_cases e s <;> rw [h]
  · replace hfull : s.evq.length = 64 := hfull
    simp only [if_pos hfull, decide_eq_true hfull, Bool.or_true, List.drop_one]
  · replace hroom : s.evq.length ≠ 64 := hroom
    simp only [if_neg hroom, decide_eq_false hroom, Bool.or_false]

/-- The event of a Frame in the numbers of the rules: the declared rate code and its fields. -/
theorem eventOf_rateCode (s : State) :
    eventOf (rateCode s) s.frame = BitVec.ofNat 32 (eventNumber (field s.cfg0 2 1) s.frame) := by
  rw [eventOf_eq, rateCode_toNat]

/-- Settles O40: the accepting branch. That EVQ is within its capacity is not needed, since an event
leaves at exactly 64. -/
theorem decodeAppendsTheEvent : Obligations.DecodeAppendsTheEvent := by
  intro s hcandidate hvalid _
  rw [exec_decode, decodeUnit_of_validFrame hcandidate hvalid, acceptFrame_eq, eventOf_rateCode,
    pushEvent_eq]
  rfl

/-! ### The timecode read back from the event (R168; 30_encoding.md R92) -/

theorem fmaxOf_le (rate : Nat) : fmaxOf rate ≤ 29 := by
  match rate with
  | 0 | 1 | 2 | 3 => decide
  | _ + 4 => exact Nat.zero_le 29

/-- The fields of a timecode stand in the event word side by side, so each reads back. -/
theorem fields_eventWord (rate : BitVec 2) {h m s f : Nat} (hh : h ≤ 23) (hm : m ≤ 59)
    (hs : s ≤ 59) (hf : f ≤ 29) :
    field (eventWord rate h m s f) 4 0 = f ∧ field (eventWord rate h m s f) 10 5 = s ∧
      field (eventWord rate h m s f) 16 11 = m ∧ field (eventWord rate h m s f) 21 17 = h ∧
      field (eventWord rate h m s f) 23 22 = rate.toNat ∧
      field (eventWord rate h m s f) 30 24 = 0 ∧ field (eventWord rate h m s f) 31 31 = 1 := by
  have hrate : rate.toNat < 4 := rate.isLt
  simp only [field, eventWord, BitVec.toNat_ofNat]
  refine ⟨?_, ?_, ?_, ?_, ?_, ?_, ?_⟩ <;> omega

/-- Two nibbles that are the decimal digits of `n` make the field `n`. -/
theorem fieldAt_of_digits {f : BitVec 80} {lo hi n : Nat} (hlo : nibbleAt f lo = n % 10)
    (hhi : nibbleAt f hi = n / 10) : fieldAt f lo hi = n := by
  rw [fieldAt, hlo, hhi, Nat.mod_add_div]

/-- Whether the queue was full or not, the event just accepted is the newest in it. -/
theorem acceptFrame_evq_getLast? (s : State) :
    (acceptFrame s).evq.getLast? = some (eventOf (rateCode s) s.frame) := by
  rw [acceptFrame_eq, pushEvent_eq]
  exact List.getLast?_concat

/-- Settles O42: digits of legal fields pass both checks, the accepted Frame's fields are the
timecode's, and its event word gives them back. -/
theorem timecodeRoundTrip : Obligations.TimecodeRoundTrip := by
  intro st h m s f hcandidate hh hm hs hf hfu hft hsu hst hmu hmt hhu hht
  have hframes := fieldAt_of_digits hfu hft
  have hseconds := fieldAt_of_digits hsu hst
  have hminutes := fieldAt_of_digits hmu hmt
  have hhours := fieldAt_of_digits hhu hht
  have hf29 : f ≤ 29 := hf.trans (fmaxOf_le _)
  have hdigits : ∀ o ∈ [0, 8, 16, 24, 32, 40, 48, 56], nibbleAt st.frame o ≤ 9 := by
    simp only [List.forall_mem_cons, hfu, hft, hsu, hst, hmu, hmt, hhu, hht]
    refine ⟨?_, ?_, ?_, ?_, ?_, ?_, ?_, ?_, nofun⟩ <;> omega
  have hvalid : ValidFrame (field st.cfg0 2 1) st.frame :=
    ⟨hdigits, hhours.trans_le hh, hminutes.trans_le hm, hseconds.trans_le hs, hframes.trans_le hf⟩
  have hevent : eventOf (rateCode st) st.frame = eventWord (rateCode st) h m s f := by
    rw [eventOf_eq, eventNumber, hhours, hminutes, hseconds, hframes, eventWord]
  refine ⟨acceptFrame { st with frameValid := false }, eventWord (rateCode st) h m s f, ?_, rfl,
    ?_, ?_⟩
  · rw [exec_decode, decodeUnit_of_validFrame hcandidate hvalid]
  · exact (acceptFrame_evq_getLast? _).trans (congrArg some hevent)
  · rw [← rateCode_toNat]
    exact fields_eventWord (rateCode st) hh hm hs hf29

end Sys2Proof.Machine

namespace Sys2Proof.Machine

/-! ## Register writes (44_host_commands.md R182 to R188) -/

/-! ### The configuration registers are written through a mask (R183 to R186) -/

section Masked

variable {m : Word} {hi lo : Nat}

theorem field_and_of_ones (h : m.extractLsb' lo (hi + 1 - lo) = BitVec.allOnes _) (d : Word) :
    field (d &&& m) hi lo = field d hi lo := by
  rw [field_eq_extract, field_eq_extract, BitVec.extractLsb'_and, h, BitVec.and_allOnes]

theorem field_and_of_zeros (h : m.extractLsb' lo (hi + 1 - lo) = 0#_) (d : Word) :
    field (d &&& m) hi lo = 0 := by
  rw [field_eq_extract, BitVec.extractLsb'_and, h, BitVec.and_zero, BitVec.toNat_zero]

end Masked

/-- A register is its low bits up to `hi` and the bits above them. -/
theorem toNat_eq_field_add (v : Word) {hi : Nat} (h : hi < 31) :
    v.toNat = field v hi 0 + 2 ^ (hi + 1) * field v 31 (hi + 1) := by
  have hlt : v.toNat / 2 ^ (hi + 1) < 2 ^ (31 + 1 - (hi + 1)) := by
    rw [Nat.div_lt_iff_lt_mul (by positivity), ← pow_add, Nat.sub_add_cancel (by omega)]
    exact v.isLt
  rw [field, field, Nat.mod_eq_of_lt hlt, pow_zero, Nat.div_one, Nat.sub_zero, Nat.mod_add_div]

/-- Settles O19: each field of CFG0 lies within the mask, each reserved range outside it. -/
theorem writeCfg0StoresFields : Obligations.WriteCfg0StoresFields := by
  intro data s
  exact ⟨data &&& cfg0Mask, rfl, readsAs_of_regAt .cfg0 rfl rfl, rfl,
    field_and_of_ones (by decide) data, field_and_of_ones (by decide) data,
    field_and_of_zeros (by decide) data, field_and_of_ones (by decide) data,
    field_and_of_ones (by decide) data, field_and_of_ones (by decide) data,
    field_and_of_zeros (by decide) data⟩

/-- MIN_PULSES is all CFG1 stores. -/
theorem and_cfg1Mask_toNat (d : Word) : (d &&& cfg1Mask).toNat = field d 15 0 := by
  rw [toNat_eq_field_add _ (show 15 < 31 by decide), field_and_of_ones (by decide),
    field_and_of_zeros (by decide), mul_zero, add_zero]

/-- PCT_LO and PCT_HI are all CFG2 stores. -/
theorem and_cfg2Mask_toNat (d : Word) :
    (d &&& cfg2Mask).toNat = field d 6 0 + 256 * field d 14 8 := by
  have hsplit (v : Word) : field v 14 0 = field v 6 0 + 128 * field v 7 7 + 256 * field v 14 8 := by
    simp only [field]
    omega
  have hgap : field (d &&& cfg2Mask) 7 7 = 0 := field_and_of_zeros (by decide) d
  have hhigh : field (d &&& cfg2Mask) 31 15 = 0 := field_and_of_zeros (by decide) d
  have hlo : field (d &&& cfg2Mask) 6 0 = field d 6 0 := field_and_of_ones (by decide) d
  have hhi : field (d &&& cfg2Mask) 14 8 = field d 14 8 := field_and_of_ones (by decide) d
  rw [toNat_eq_field_add _ (show 14 < 31 by decide), hsplit, hgap, hhigh, hlo, hhi, mul_zero,
    add_zero, mul_zero, add_zero]

theorem and_sampleRateMask_toNat (d : Word) : (d &&& sampleRateMask).toNat = field d 23 0 := by
  rw [toNat_eq_field_add _ (show 23 < 31 by decide), field_and_of_ones (by decide),
    field_and_of_zeros (by decide), mul_zero, add_zero]

/-- Settles O20: what passes each mask, as a number. -/
theorem configurationWritesStoreFields : Obligations.ConfigurationWritesStoreFields := by
  intro data s
  exact ⟨⟨_, rfl, readsAs_of_regAt .cfg1 rfl rfl, rfl, and_cfg1Mask_toNat data⟩,
    ⟨_, rfl, readsAs_of_regAt .cfg2 rfl rfl, rfl, and_cfg2Mask_toNat data⟩,
    ⟨_, rfl, readsAs_of_regAt .sampleRate rfl rfl, rfl, and_sampleRateMask_toNat data⟩⟩

/-! ### SAMPLE_IN (R182) -/

/-- Settles O21: the sample in two's complement is `sext_16` of the data. -/
theorem pushAppendsSignedSample : Obligations.PushAppendsSignedSample := by
  intro data s
  refine ⟨fun hroom => ⟨sampleOf data, sampleOf_toInt data, ?_⟩, fun hfull => ?_⟩
  · rw [exec, execPush]
    exact if_pos hroom
  · rw [exec, execPush]
    exact if_neg hfull.not_gt

/-! ### FRAME0 to FRAME2 (R187, R188) -/

section SetFrame

variable (f : BitVec 80) (data : Word) (j : Nat)

theorem setFrame0_getLsbD (hj : j < 80) : (setFrame0 f data).getLsbD j =
    if j < 32 then data.getLsbD j else f.getLsbD j := by
  rw [setFrame0, BitVec.getLsbD_append, BitVec.getLsbD_extractLsb']
  split
  · rfl
  · rw [Nat.add_sub_cancel' (by omega), decide_eq_true (by omega), Bool.true_and]

theorem setFrame1_getLsbD (hj : j < 80) : (setFrame1 f data).getLsbD j =
    if 32 ≤ j ∧ j < 64 then data.getLsbD (j - 32) else f.getLsbD j := by
  simp only [setFrame1, BitVec.getLsbD_append, BitVec.getLsbD_extractLsb']
  by_cases hlow : j < 32
  · simp [hlow, hlow.not_ge]
  · by_cases hmid : j - 32 < 32
    · simp [hlow, hmid, show 32 ≤ j ∧ j < 64 by omega]
    · simp [hlow, hmid, show ¬ (32 ≤ j ∧ j < 64) by omega, show j - 32 - 32 < 16 by omega,
        show 64 + (j - 32 - 32) = j by omega]

theorem setFrame2_getLsbD (hj : j < 80) : (setFrame2 f data).getLsbD j =
    if 64 ≤ j then data.getLsbD (j - 64) else f.getLsbD j := by
  simp only [setFrame2, BitVec.getLsbD_append, BitVec.getLsbD_extractLsb']
  by_cases hlow : j < 64
  · simp [hlow, hlow.not_ge]
  · simp [hlow, show 64 ≤ j by omega, show j - 64 < 16 by omega]

end SetFrame

/-- Settles O22: each new FRAME by its bits; only that field is written. -/
theorem writeFrameLowWordsReplaceTheirBits : Obligations.WriteFrameLowWordsReplaceTheirBits := by
  intro data s
  exact ⟨⟨_, rfl, setFrame0_getLsbD s.frame data⟩, ⟨_, rfl, setFrame1_getLsbD s.frame data⟩⟩

/-- Settles O23: the new FRAME by its bits; the last word also makes it a candidate. -/
theorem writeFrame2SetsFrameValid : Obligations.WriteFrame2SetsFrameValid := by
  intro data s
  exact ⟨_, rfl, setFrame2_getLsbD s.frame data⟩

/-! ### RESULT and WIN_FLAGS (R181) -/

/-- A transaction leaves RESULT and WIN_FLAGS alone, or it is a write to CMD. -/
theorem exec_keeps_result_or_writes_cmd {i : Instr} {s t : State} (he : exec i s = .next t) :
    (t.result = s.result ∧ t.winFlags = s.winFlags) ∨
    ∃ data, encode i = txnWord true 0x01#8 data := by
  cases i with
  | rd _ | wrCfg0 _ | wrCfg1 _ | wrCfg2 _ | wrSampleRate _ | wrFrame0 _ | wrFrame1 _ | wrFrame2 _
  | wrIllegal _ _ =>
    cases he
    exact .inl ⟨rfl, rfl⟩
  | push _ =>
    simp only [exec, execPush] at he
    split at he <;> cases he <;> exact .inl ⟨rfl, rfl⟩
  | nop | clear | edge | classify | sync | decode | run | pop | cmdReserved _ =>
    exact .inr ⟨_, rfl⟩

/-- Settles O53: the word is a read, or the encoding of an instruction that is no write to CMD. -/
theorem onlyCommandsChangeResult : Obligations.OnlyCommandsChangeResult := by
  intro w s t hnocmd he
  obtain ⟨idx, data, rfl⟩ | ⟨i, hwf, rfl⟩ := txnWord_cases w
  · rw [decode_read] at he
    cases he
    exact ⟨rfl, rfl⟩
  · rw [decodeOfEncodeIsIdentity i hwf] at he
    obtain hkeeps | ⟨data, hcmd⟩ := exec_keeps_result_or_writes_cmd he
    · exact hkeeps
    · rw [hcmd] at hnocmd
      exact absurd ⟨txnIsWrite_txnWord _ _ _, txnIndex_txnWord _ _ _⟩ hnocmd

/-! ## NOP and POP (44_host_commands.md R189, R192) -/

/-- Settles O44: command word 0 is the encoding of NOP, and NOP answers its own state. -/
theorem nopChangesNothing : Obligations.NopChangesNothing :=
  ⟨decodeOfEncodeIsIdentity .nop rfl, fun _ => rfl⟩

theorem exec_pop_of_cons {s : State} {e : Word} {rest : List Word} (h : s.evq = e :: rest) :
    exec .pop s = .next { s with evq := rest } := by
  simp only [exec, execPop, h]

theorem exec_pop_of_nil {s : State} (h : s.evq = []) : exec .pop s = .next (raise .seq s) := by
  simp only [exec, execPop, h]

/-- Settles O46: command word 7 is the encoding of POP; its two cases follow the queue. -/
theorem popRemovesTheOldestEvent : Obligations.PopRemovesTheOldestEvent :=
  ⟨decodeOfEncodeIsIdentity .pop rfl, fun _ _ _ => exec_pop_of_cons, fun _ => exec_pop_of_nil⟩

end Sys2Proof.Machine

namespace Sys2Proof.Machine

/-! ## RUN (44_host_commands.md R191 to R194) -/

theorem exec_run (s : State) : exec .run s = .next (runUnit s) := rfl

/-- RUN with the outcome codes as numbers. -/
theorem runUnit_eq (s : State) : runUnit s =
    if (edgeUnit s).result = 1#4 then
      if (classUnit (edgeUnit s)).result = 2#4 then
        syncDecodeLoop (syncBound (classUnit (edgeUnit s))) (classUnit (edgeUnit s))
      else classUnit (edgeUnit s)
    else edgeUnit s := rfl

/-! ### RUN as the stage commands (R194) -/

/-- A staged search, one SYNC on: it ends there, or DECODE follows and the search goes on. -/
theorem stagedSearch_iff_round {s t : State} : StagedSearch s t ↔
    if (syncUnit s).result = 3#4 then StagedSearch (decodeUnit (syncUnit s)) t
    else syncUnit s = t := by
  constructor
  · rintro (⟨hsync, hstop⟩ | ⟨hsync, hframe, hdecode, hrest⟩)
    · cases hsync
      rw [if_neg hstop]
    · cases hsync
      cases hdecode
      rwa [if_pos hframe]
  · intro h
    split at h
    · next hframe => exact .again rfl hframe rfl h
    · next hstop => exact h ▸ .stops rfl hstop

/-- With SYNCs enough for the bits there are, the loop of RUN is the staged search. -/
theorem stagedSearch_iff_loop {n : Nat} {s t : State} (h : (afterAppend s).length < 16 * n) :
    StagedSearch s t ↔ syncDecodeLoop n s = t := by
  induction n generalizing s with
  | zero => omega
  | succ n ih =>
    rw [stagedSearch_iff_round, syncDecodeLoop, value_frame]
    split
    · next hframe =>
      obtain ⟨hused, -⟩ := syncDecode_uses_bits hframe
      exact ih (by omega)
    · rfl

theorem stagedCycle_iff {s t : State} : StagedCycle s t ↔
    if (edgeUnit s).result = 1#4 then
      if (classUnit (edgeUnit s)).result = 2#4 then StagedSearch (classUnit (edgeUnit s)) t
      else classUnit (edgeUnit s) = t
    else edgeUnit s = t := by
  constructor
  · rintro (⟨hedge, hfail⟩ | ⟨hedge, hok, hclass, hfail⟩ | ⟨hedge, hok, hclass, hbits, hsearch⟩) <;>
      cases hedge
    · rw [if_neg hfail]
    · cases hclass
      rw [if_pos hok, if_neg hfail]
    · cases hclass
      rwa [if_pos hok, if_pos hbits]
  · intro h
    split at h
    · next hok =>
      split at h
      · next hbits => exact .searches rfl hok rfl hbits h
      · next hfail => exact h ▸ .classFails rfl hok rfl hfail
    · next hfail => exact h ▸ .edgeFails rfl hfail

/-- Settles O48: stage by stage RUN branches as the host would, and its bounded loop is the host's
unbounded one, since the bound leaves SYNCs enough. -/
theorem runEqualsTheStageCommands : Obligations.RunEqualsTheStageCommands := by
  intro s t
  rw [exec_run, Host.Outcome.next.injEq, stagedCycle_iff, runUnit_eq,
    stagedSearch_iff_loop (afterAppend_length_lt_syncBound _)]
  split_ifs <;> rfl

/-! ### How a RUN goes -/

/-- What EDGE leaves when it answers EDGES_OK. -/
def edgesTaken (s : State) : State := recordOutcome .edgesOk { takeWindow s with elValid := true }

/-- What EDGE and CLASS leave when they answer EDGES_OK and BITS_OK. -/
def bitsTaken (s : State) : State := classified (labels (edgesTaken s)) (edgesTaken s)

/-- RUN, once: no signal, a window rejected, or the loop on the bits of the window. CLASS finds the
edge list that EDGE has just made, so no stage of RUN raises ERR_SEQ before the loop. -/
theorem runUnit_cases (s : State) :
    runUnit s = recordOutcome .noSignal (discardBits { takeWindow s with elValid := false }) ∨
    runUnit s = rejectWindow (takeEdges (edgesTaken s)) ∨
    runUnit s = syncDecodeLoop (syncBound (bitsTaken s)) (bitsTaken s) := by
  obtain ⟨-, hedge⟩ | ⟨-, hedge⟩ := edgeUnit_cases s
  · left
    rw [runUnit_eq, hedge]
    rfl
  · right
    replace hedge : edgeUnit s = edgesTaken s := hedge
    have hvalid : (edgesTaken s).elValid = true := rfl
    obtain ⟨hnone, -⟩ | ⟨-, -, hclass⟩ | ⟨-, henough, -⟩ := classUnit_cases (edgesTaken s)
    · rw [hvalid] at hnone
      cases hnone
    · left
      rw [runUnit_eq, hedge, hclass]
      rfl
    · right
      have hclass : classUnit (edgesTaken s) = bitsTaken s := classUnit_accept _ henough hvalid
      rw [runUnit_eq, hedge, hclass]
      rfl

/-- The rule of the loop: what holds before each SYNC, by way of a round that extracts a Frame and
decodes it, gives what its last SYNC establishes. -/
theorem syncDecodeLoop_ends {P Q : State → Prop}
    (hround : ∀ s, P s → (syncUnit s).result = 3#4 → P (decodeUnit (syncUnit s)))
    (hlast : ∀ s, P s → (syncUnit s).result ≠ 3#4 → Q (syncUnit s))
    {n : Nat} {s : State} (hn : (afterAppend s).length < 16 * n) (h : P s) :
    Q (syncDecodeLoop n s) := by
  induction n generalizing s with
  | zero => omega
  | succ n ih =>
    rw [syncDecodeLoop, value_frame]
    split
    · next hframe =>
      obtain ⟨hused, -⟩ := syncDecode_uses_bits hframe
      exact ih (by omega) (hround s h hframe)
    · next hstop => exact hlast s h hstop

/-- The rule of RUN: both early endings establish `Q`, and so does the loop by
`syncDecodeLoop_ends` from what EDGE and CLASS leave. -/
theorem runUnit_ends {P Q : State → Prop} (s : State)
    (hnosignal : Q (recordOutcome .noSignal (discardBits { takeWindow s with elValid := false })))
    (hreject : Q (rejectWindow (takeEdges (edgesTaken s)))) (hbits : P (bitsTaken s))
    (hround : ∀ s, P s → (syncUnit s).result = 3#4 → P (decodeUnit (syncUnit s)))
    (hlast : ∀ s, P s → (syncUnit s).result ≠ 3#4 → Q (syncUnit s)) : Q (runUnit s) := by
  obtain h | h | h := runUnit_cases s <;> rw [h]
  · exact hnosignal
  · exact hreject
  · exact syncDecodeLoop_ends hround hlast (afterAppend_length_lt_syncBound _) hbits

/-- DECODE on a candidate, once: FRAME_VALID is taken back and one of the two counts goes up. -/
theorem decodeUnit_of_frameValid {s : State} (hv : s.frameValid = true) :
    decodeUnit s = acceptFrame { s with frameValid := false } ∨
    decodeUnit s = rejectFrame { s with frameValid := false } := by
  obtain ⟨hnone, -⟩ | ⟨-, -, -, h⟩ | ⟨-, -, h⟩ := decodeUnit_cases s
  · rw [hv] at hnone
    cases hnone
  · exact .inl h
  · exact .inr h

/-- A SYNC that answers FRAME has a candidate for DECODE. -/
theorem syncUnit_frameValid {s : State} (h : (syncUnit s).result = 3#4) :
    (syncUnit s).frameValid = true := by
  obtain ⟨i, -, -, he⟩ := syncUnit_frame h
  rw [he]
  rfl

/-! ### What RUN leaves alone (R191, R202) -/

/-- SB and EL_VALID, with all that no stage of RUN writes; the rest blanked out. -/
def runFrame (s : State) : State :=
  { State.reset with
    hostIn := s.hostIn, hostOut := s.hostOut, sb := s.sb, elValid := s.elValid, sbOvf := s.sbOvf
    errSeq := s.errSeq, errCmd := s.errCmd, errBus := s.errBus
    cfg0 := s.cfg0, cfg1 := s.cfg1, cfg2 := s.cfg2, sampleRate := s.sampleRate }

theorem syncUnit_runFrame (s : State) : runFrame (syncUnit s) = runFrame s := by
  obtain h | ⟨_, h⟩ | ⟨_, h⟩ | ⟨_, h⟩ := syncUnit_cases s <;> rw [h] <;> rfl

theorem decodeUnit_runFrame {s : State} (hv : s.frameValid = true) :
    runFrame (decodeUnit s) = runFrame s := by
  obtain h | h := decodeUnit_of_frameValid hv <;> rw [h]
  · rw [acceptFrame_eq, pushEvent_eq]
    rfl
  · rfl

/-- The other outcomes of SYNC than FRAME. -/
theorem syncUnit_result_of_ne {s : State} (h : (syncUnit s).result ≠ 3#4) :
    (syncUnit s).result ∈ [5#4, 8#4, 9#4, 10#4] := by
  obtain he | ⟨_, he⟩ | ⟨_, he⟩ | ⟨_, he⟩ := syncUnit_cases s <;> rw [he] at h ⊢
  · simp
  · simp at h
  · simp
  · simp

/-- RUN ends on one of its final outcomes, and of `runFrame` it changes only that the window and
its edge list are consumed. -/
theorem runUnit_outcome (s : State) : (runUnit s).result ∈ [5#4, 8#4, 9#4, 10#4] ∧
    runFrame (runUnit s) = runFrame { s with sb := [], elValid := false } := by
  refine runUnit_ends s (P := fun u => runFrame u = runFrame { s with sb := [], elValid := false })
    (Q := fun t => t.result ∈ [5#4, 8#4, 9#4, 10#4] ∧
      runFrame t = runFrame { s with sb := [], elValid := false })
    ⟨by simp, rfl⟩ ⟨by simp, rfl⟩ rfl ?_ ?_
  · intro u hu hframe
    rw [decodeUnit_runFrame (syncUnit_frameValid hframe), syncUnit_runFrame, hu]
  · intro u hu hstop
    exact ⟨syncUnit_result_of_ne hstop, (syncUnit_runFrame u).trans hu⟩

/-- Settles O47: the fields of `runFrame`. -/
theorem runCompletesWithAFinalOutcome : Obligations.RunCompletesWithAFinalOutcome := by
  intro s
  obtain ⟨hresult, hframe⟩ := runUnit_outcome s
  have hkept {α : Type} (get : State → α) := congrArg get hframe
  exact ⟨runUnit s, rfl, hresult, hkept State.sb, hkept State.elValid, hkept State.hostIn,
    hkept State.hostOut, hkept State.cfg0, hkept State.cfg1, hkept State.cfg2,
    hkept State.sampleRate, hkept State.sbOvf, hkept State.errSeq, hkept State.errCmd,
    hkept State.errBus⟩

/-! ### The frames of a cycle (R193) -/

/-- Every Frame of the cycle has been judged. -/
def AllJudged (s : State) : Prop :=
  s.winEvents.toNat + s.winInvalid.toNat = s.winFrames.toNat

/-- Before each SYNC of RUN: every Frame is judged, and each has used up 16 of the bits that
`ACC_CAP` had room for. -/
def FramesPaid (s : State) : Prop :=
  AllJudged s ∧ 16 * s.winFrames.toNat + (afterAppend s).length ≤ 65536

/-- DECODE judges the candidate: one of the two counts goes up by 1. -/
theorem decodeUnit_counts {s : State} (hv : s.frameValid = true) :
    ((decodeUnit s).winEvents = s.winEvents + 1#32 ∧ (decodeUnit s).winInvalid = s.winInvalid) ∨
    ((decodeUnit s).winEvents = s.winEvents ∧ (decodeUnit s).winInvalid = s.winInvalid + 1#32) := by
  obtain h | h := decodeUnit_of_frameValid hv <;> rw [h]
  · exact .inl ⟨by simp, by simp⟩
  · exact .inr ⟨by simp, by simp⟩

theorem syncUnit_counts (s : State) :
    (syncUnit s).winEvents = s.winEvents ∧ (syncUnit s).winInvalid = s.winInvalid ∧
    (syncUnit s).winFrames =
      if (syncUnit s).result = 3#4 then s.winFrames + 1#32 else s.winFrames := by
  obtain h | ⟨_, h⟩ | ⟨_, h⟩ | ⟨_, h⟩ := syncUnit_cases s <;> rw [h] <;> exact ⟨rfl, rfl, rfl⟩

/-- A round extracts one Frame and judges it; that it used up bits keeps the count from wrapping. -/
theorem round_keeps_framesPaid {s : State} (h : FramesPaid s) (hframe : (syncUnit s).result = 3#4) :
    FramesPaid (decodeUnit (syncUnit s)) := by
  obtain ⟨hjudged, hpaid⟩ := h
  obtain ⟨hused, hleft⟩ := syncDecode_uses_bits hframe
  obtain ⟨hevents, hinvalid, hframes⟩ := syncUnit_counts s
  obtain ⟨-, -, -, -, -, hkept⟩ := decodeUnit_frame (syncUnit s)
  have hincr {c : Word} (hc : c.toNat ≤ 4096) : (c + 1#32).toNat = c.toNat + 1 :=
    BitVec.toNat_add_of_lt (show c.toNat + 1 < 2 ^ 32 by omega)
  have hjudges := decodeUnit_counts (syncUnit_frameValid hframe)
  rw [AllJudged] at hjudged
  rw [hevents, hinvalid] at hjudges
  rw [if_pos hframe] at hframes
  rw [FramesPaid, AllJudged, hkept, hframes, hincr (by omega)]
  refine ⟨?_, by omega⟩
  obtain ⟨he, hi⟩ | ⟨he, hi⟩ := hjudges <;> rw [he, hi, hincr (by omega)] <;> omega

theorem afterAppend_capacity_of_blValid {s : State} (hv : s.blValid = true) :
    (afterAppend s).length ≤ 65536 := by
  have hcap : Config.accCap = 65536 := rfl
  rw [afterAppend, if_pos hv, List.length_drop]
  omega

/-- EDGE has cleared the counts, and CLASS has left bits to append. -/
theorem bitsTaken_framesPaid (s : State) : FramesPaid (bitsTaken s) := by
  have hnone : (bitsTaken s).winFrames.toNat = 0 := rfl
  have hcap := afterAppend_capacity_of_blValid (s := bitsTaken s) rfl
  exact ⟨rfl, by omega⟩

/-- Settles O49: 16 bits for each Frame make at most 4096 of them; a RUN that ends before the loop
has none. -/
theorem runDecodesEveryFrameItExtracts : Obligations.RunDecodesEveryFrameItExtracts := by
  intro s t hrun
  cases hrun
  refine runUnit_ends s (Q := fun t => t.winFrames.toNat ≤ 4096 ∧ AllJudged t)
    ⟨Nat.zero_le _, rfl⟩ ⟨Nat.zero_le _, rfl⟩ (bitsTaken_framesPaid s)
    (fun _ => round_keeps_framesPaid) ?_
  rintro u ⟨hjudged, hpaid⟩ hstop
  obtain ⟨hevents, hinvalid, hframes⟩ := syncUnit_counts u
  rw [if_neg hstop] at hframes
  rw [AllJudged, hevents, hinvalid, hframes]
  exact ⟨by omega, hjudged⟩

end Sys2Proof.Machine

namespace Sys2Proof.Machine

/-! ## The causes of the sticky flags (60_exceptions.md R202, R203) -/

/-- What makes the instruction `i` raise a protocol error in the state `s` (60_exceptions.md
R202). -/
def ErrorCause (i : Instr) (s : State) : ProtocolError → Prop
  | .seq => (i = .classify ∧ s.elValid = false) ∨ (i = .decode ∧ s.frameValid = false) ∨
      (i = .pop ∧ s.evq = [])
  | .cmd => ∃ d, i = .cmdReserved d
  | .bus => ∃ idx d, i = .wrIllegal idx d

/-- Every sticky flag that is 1 in `t` is 1 in `s` already, or the instruction `i` met the cause of
that flag in `s` (60_exceptions.md R202, R203). -/
structure FlagsCaused (i : Instr) (s t : State) : Prop where
  errSeq : t.errSeq = true → s.errSeq = true ∨ ErrorCause i s .seq
  errCmd : t.errCmd = true → s.errCmd = true ∨ ErrorCause i s .cmd
  errBus : t.errBus = true → s.errBus = true ∨ ErrorCause i s .bus
  sbOvf : t.sbOvf = true → s.sbOvf = true ∨ ∃ d, i = .push d ∧ Config.sbCap ≤ s.sb.length
  accOvf : t.accOvf = true → s.accOvf = true ∨ i = .run ∨
    (i = .sync ∧ s.blValid = true ∧ Config.accCap < s.acc.length + s.bl.length)
  evOvf : t.evOvf = true → s.evOvf = true ∨ i = .run ∨
    (i = .decode ∧ s.frameValid = true ∧ s.evq.length = Config.evqCap)

section Caused

variable {i : Instr} {s t : State}

theorem FlagsCaused.refl (i : Instr) (s : State) : FlagsCaused i s s :=
  ⟨.inl, .inl, .inl, .inl, .inl, .inl⟩

/-- A protocol error sets its own flag and no other. -/
theorem raise_flagsCaused {e : ProtocolError} (h : ErrorCause i s e) :
    FlagsCaused i s (raise e s) := by
  cases e with
  | seq => exact { FlagsCaused.refl i s with errSeq := fun _ => .inr h }
  | cmd => exact { FlagsCaused.refl i s with errCmd := fun _ => .inr h }
  | bus => exact { FlagsCaused.refl i s with errBus := fun _ => .inr h }

theorem edgeUnit_flagsCaused : FlagsCaused i s (edgeUnit s) := by
  obtain ⟨-, h⟩ | ⟨-, h⟩ := edgeUnit_cases s <;> rw [h] <;> exact { FlagsCaused.refl i s with }

theorem classUnit_flagsCaused : FlagsCaused .classify s (classUnit s) := by
  obtain ⟨hnone, h⟩ | ⟨-, -, h⟩ | ⟨-, -, h⟩ := classUnit_cases s <;> rw [h]
  · exact raise_flagsCaused (.inl ⟨rfl, hnone⟩)
  · exact { FlagsCaused.refl .classify s with }
  · exact { FlagsCaused.refl .classify s with }

/-- The append of SYNC sets ACC_OVF only when the bits exceed the capacity, and the search sets
nothing. -/
theorem syncUnit_flagsCaused : FlagsCaused .sync s (syncUnit s) := by
  have happend : FlagsCaused .sync s (appended s) :=
    { FlagsCaused.refl .sync s with
      accOvf := fun h => by
        simp only [appended, Bool.or_eq_true, Bool.and_eq_true, decide_eq_true_eq] at h
        exact h.imp_right fun hover => .inr ⟨rfl, hover⟩ }
  obtain h | ⟨_, h⟩ | ⟨_, h⟩ | ⟨_, h⟩ := syncUnit_cases s <;> rw [h] <;> exact { happend with }

/-- An accepted event sets EV_OVF only when the queue is full. -/
theorem decodeUnit_flagsCaused : FlagsCaused .decode s (decodeUnit s) := by
  obtain ⟨hnone, h⟩ | ⟨hcandidate, -, -, h⟩ | ⟨-, -, h⟩ := decodeUnit_cases s <;> rw [h]
  · exact raise_flagsCaused (.inr (.inl ⟨rfl, hnone⟩))
  · rw [acceptFrame_eq, pushEvent_eq]
    exact
      { FlagsCaused.refl .decode s with
        evOvf := fun h => by
          simp only [recordOutcome, Bool.or_eq_true, decide_eq_true_eq] at h
          exact h.imp_right fun hfull => .inr ⟨rfl, hcandidate, hfull⟩ }
  · exact { FlagsCaused.refl .decode s with }

/-- RUN leaves the protocol-error flags and SB_OVF alone; the two other overflow flags are left to
its SYNC and DECODE. -/
theorem runUnit_flagsCaused : FlagsCaused .run s (runUnit s) := by
  obtain ⟨-, hframe⟩ := runUnit_outcome s
  exact
    { errSeq := fun hup => .inl (congrArg State.errSeq hframe ▸ hup)
      errCmd := fun hup => .inl (congrArg State.errCmd hframe ▸ hup)
      errBus := fun hup => .inl (congrArg State.errBus hframe ▸ hup)
      sbOvf := fun hup => .inl (congrArg State.sbOvf hframe ▸ hup)
      accOvf := fun _ => .inr (.inl rfl)
      evOvf := fun _ => .inr (.inl rfl) }

/-- After CLEAR every flag is 0. -/
theorem clearAll_flagsCaused : FlagsCaused .clear s (clearAll s) :=
  ⟨nofun, nofun, nofun, nofun, nofun, nofun⟩

theorem exec_flagsCaused (he : exec i s = .next t) : FlagsCaused i s t := by
  cases i with
  | push d =>
    simp only [exec, execPush] at he
    split at he <;> cases he
    · exact { FlagsCaused.refl (.push d) s with }
    · next hfull =>
      exact { FlagsCaused.refl (.push d) s with sbOvf := fun _ => .inr ⟨d, rfl, not_lt.mp hfull⟩ }
  | pop =>
    simp only [exec, execPop] at he
    split at he <;> cases he
    · next hempty => exact raise_flagsCaused (.inr (.inr ⟨rfl, hempty⟩))
    · exact { FlagsCaused.refl .pop s with }
  | clear => cases he; exact clearAll_flagsCaused
  | edge => cases he; exact edgeUnit_flagsCaused
  | classify => cases he; exact classUnit_flagsCaused
  | sync => cases he; exact syncUnit_flagsCaused
  | decode => cases he; exact decodeUnit_flagsCaused
  | run => cases he; exact runUnit_flagsCaused
  | cmdReserved d => cases he; exact raise_flagsCaused ⟨d, rfl⟩
  | wrIllegal idx d => cases he; exact raise_flagsCaused ⟨idx, d, rfl⟩
  | _ => cases he; exact { FlagsCaused.refl _ s with }

end Caused

/-- Settles O52: the six fields of `exec_flagsCaused`. -/
theorem flagsRiseOnlyFromTheirCauses : Obligations.FlagsRiseOnlyFromTheirCauses := by
  intro i s t he
  have h := exec_flagsCaused he
  exact ⟨h.errSeq, h.errCmd, h.errBus, h.sbOvf, h.accOvf, h.evOvf⟩

/-! ## Every step goes on (60_exceptions.md R207, R213) -/

/-- Settles O9: of the three kinds of step in `step_cases` only the idle one has no input. -/
theorem idleKeepsAllState : Obligations.IdleKeepsAllState := by
  intro s hnone
  obtain ⟨-, hidle⟩ | ⟨_, _, hpending, -⟩ | ⟨_, hpending, -⟩ := step_cases s
  · exact hidle
  · simp [hnone] at hpending
  · simp [hnone] at hpending

/-- No step faults or is refused: whatever the next input is, the block is ready for the one after
it. -/
theorem step_answers_next (s : State) : ∃ t, step s = .next t := by
  obtain ⟨-, h⟩ | ⟨w, rest, -, h⟩ | ⟨rest, -, h⟩ := step_cases s <;> rw [h]
  · exact ⟨_, rfl⟩
  · exact exec_answers_next (decode w) _
  · exact ⟨_, rfl⟩

/-- The induction over a run: where every step from a state with `P` goes on to a state with `P`, so
does every run. -/
theorem run_of_step {M : Host.Core} {P : M.State → Prop}
    (hstep : ∀ s, P s → ∃ t, M.step s = .next t ∧ P t) (k : Nat) {s : M.State} (h : P s) :
    ∃ t, M.run k s = .next t ∧ P t := by
  induction k generalizing s with
  | zero => exact ⟨s, rfl, h⟩
  | succ k ih =>
    obtain ⟨u, hu, hPu⟩ := hstep s h
    rw [Host.Core.run, hu]
    exact ih hPu

/-- Settles O60: the reset state meets the invariant, of which no clause is about the inputs, and
every step goes on and keeps it. -/
theorem noHostProgramStopsTheBlock : Obligations.NoHostProgramStopsTheBlock := by
  intro inputs k
  refine run_of_step (M := Sys2Proof.core) (P := Invariant) (fun s h => ?_) k
    { resetMeetsTheInvariant with }
  obtain ⟨t, hstep⟩ := step_answers_next s
  exact ⟨t, hstep, stepKeepsTheInvariant s t h hstep⟩

end Sys2Proof.Machine

namespace Sys2Proof.Machine

/-! ## The configuration registers (10_state.md R54; 70_reset_and_hazards.md R221) -/

/-- CFG0, CFG1, CFG2 and SAMPLE_RATE. -/
def configuration (s : State) : Word × Word × Word × Word :=
  (s.cfg0, s.cfg1, s.cfg2, s.sampleRate)

section Configuration

variable {s t : State}

theorem configuration_eq_iff : configuration t = configuration s ↔
    t.cfg0 = s.cfg0 ∧ t.cfg1 = s.cfg1 ∧ t.cfg2 = s.cfg2 ∧ t.sampleRate = s.sampleRate := by
  simp only [configuration, Prod.mk.injEq]

/-- `runFrame` holds the configuration. -/
theorem configuration_of_runFrame (h : runFrame t = runFrame s) :
    configuration t = configuration s :=
  show configuration (runFrame t) = configuration (runFrame s) from congrArg configuration h

theorem raise_configuration (e : ProtocolError) : configuration (raise e s) = configuration s := by
  simp [configuration_eq_iff]

theorem clearAll_configuration : configuration (clearAll s) = configuration s := rfl

theorem edgeUnit_configuration : configuration (edgeUnit s) = configuration s := by
  obtain ⟨-, h⟩ | ⟨-, h⟩ := edgeUnit_cases s <;> rw [h] <;> rfl

theorem classUnit_configuration : configuration (classUnit s) = configuration s := by
  obtain ⟨-, h⟩ | ⟨-, -, h⟩ | ⟨-, -, h⟩ := classUnit_cases s <;> rw [h] <;> rfl

theorem syncUnit_configuration : configuration (syncUnit s) = configuration s :=
  configuration_of_runFrame (syncUnit_runFrame s)

theorem decodeUnit_configuration : configuration (decodeUnit s) = configuration s := by
  obtain ⟨-, h⟩ | ⟨-, -, -, h⟩ | ⟨-, -, h⟩ := decodeUnit_cases s <;> rw [h]
  · exact raise_configuration .seq
  · rw [acceptFrame_eq, pushEvent_eq]
    rfl
  · rfl

theorem runUnit_configuration : configuration (runUnit s) = configuration s := by
  obtain ⟨-, hframe⟩ := runUnit_outcome s
  show configuration (runUnit s) = configuration { s with sb := [], elValid := false }
  exact configuration_of_runFrame hframe

/-- What a transaction can do to the configuration, once: nothing, or the write of one register. -/
theorem exec_configuration {i : Instr} (he : exec i s = .next t) :
    configuration t = configuration s ∨
    (∃ d, i = .wrCfg0 d ∧ t = { s with cfg0 := d &&& cfg0Mask }) ∨
    (∃ d, i = .wrCfg1 d ∧ t = { s with cfg1 := d &&& cfg1Mask }) ∨
    (∃ d, i = .wrCfg2 d ∧ t = { s with cfg2 := d &&& cfg2Mask }) ∨
    ∃ d, i = .wrSampleRate d ∧ t = { s with sampleRate := d &&& sampleRateMask } := by
  cases i with
  | wrCfg0 d => cases he; exact .inr (.inl ⟨d, rfl, rfl⟩)
  | wrCfg1 d => cases he; exact .inr (.inr (.inl ⟨d, rfl, rfl⟩))
  | wrCfg2 d => cases he; exact .inr (.inr (.inr (.inl ⟨d, rfl, rfl⟩)))
  | wrSampleRate d => cases he; exact .inr (.inr (.inr (.inr ⟨d, rfl, rfl⟩)))
  | push _ =>
    simp only [exec, execPush] at he
    split at he <;> cases he <;> exact .inl rfl
  | pop =>
    simp only [exec, execPop] at he
    split at he <;> cases he <;> exact .inl rfl
  | clear => cases he; exact .inl clearAll_configuration
  | edge => cases he; exact .inl edgeUnit_configuration
  | classify => cases he; exact .inl classUnit_configuration
  | sync => cases he; exact .inl syncUnit_configuration
  | decode => cases he; exact .inl decodeUnit_configuration
  | run => cases he; exact .inl runUnit_configuration
  | cmdReserved _ => cases he; exact .inl (raise_configuration .cmd)
  | wrIllegal _ _ => cases he; exact .inl (raise_configuration .bus)
  | rd _ | wrFrame0 _ | wrFrame1 _ | wrFrame2 _ | nop => cases he; exact .inl rfl

end Configuration

/-- Settles O54: in each case of `exec_configuration` a register is kept or it is the one the
transaction writes. -/
theorem configurationChangesOnlyByItsWrites : Obligations.ConfigurationChangesOnlyByItsWrites := by
  intro i s t he
  obtain hkept | ⟨d, rfl, rfl⟩ | ⟨d, rfl, rfl⟩ | ⟨d, rfl, rfl⟩ | ⟨d, rfl, rfl⟩ :=
    exec_configuration he
  · obtain ⟨h0, h1, h2, hrate⟩ := configuration_eq_iff.mp hkept
    exact ⟨.inl h0, .inl h1, .inl h2, .inl hrate⟩
  · exact ⟨.inr ⟨d, rfl⟩, .inl rfl, .inl rfl, .inl rfl⟩
  · exact ⟨.inl rfl, .inr ⟨d, rfl⟩, .inl rfl, .inl rfl⟩
  · exact ⟨.inl rfl, .inl rfl, .inr ⟨d, rfl⟩, .inl rfl⟩
  · exact ⟨.inl rfl, .inl rfl, .inl rfl, .inr ⟨d, rfl⟩⟩

/-! ## Reset and CLEAR (70_reset_and_hazards.md R220, R221) -/

/-- Of the three kinds of step in `step_cases` a reset input picks the last. -/
theorem step_of_reset {s : State} {rest : List HostInput} (hin : s.hostIn = .reset :: rest) :
    step s = .next { State.reset with hostIn := rest, hostOut := s.hostOut } := by
  obtain ⟨hidle, -⟩ | ⟨_, _, htxn, -⟩ | ⟨rest', hreset, hstep⟩ := step_cases s
  · simp [hin] at hidle
  · simp [hin] at htxn
  · obtain rfl : rest = rest' := by simpa [hin] using hreset
    exact hstep

/-- Settles O8: the values of `State.reset`, element by element, are those of R54. -/
theorem resetInputGivesResetValues : Obligations.ResetInputGivesResetValues :=
  fun _ _ hin => step_of_reset hin

/-- CLEAR as an equation: the reset state with the configuration of `s` and with what the host still
presents and has read. -/
theorem exec_clear (s : State) : exec .clear s = .next
    { State.reset with
      hostIn := s.hostIn, hostOut := s.hostOut
      cfg0 := s.cfg0, cfg1 := s.cfg1, cfg2 := s.cfg2, sampleRate := s.sampleRate } := rfl

/-- Settles O45: command word 1 is the encoding of CLEAR, and the fields of `State.reset` are those
of R54. -/
theorem clearKeepsOnlyTheConfiguration : Obligations.ClearKeepsOnlyTheConfiguration :=
  ⟨decodeOfEncodeIsIdentity .clear rfl, exec_clear⟩

end Sys2Proof.Machine
